-- ==== Sys2Proof/Word.lean ====
section
/-! DEFINITION. The word types of the block: 256-bit operand values, 32-bit bus words, 12-bit window addresses and
4-bit register numbers (00_scope.md R5, R7; 30_encoding.md R70). -/

namespace Sys2Proof

/-- A 256-bit operand value, unsigned (00_scope.md R5, R8). -/
abbrev Word := BitVec 256

/-- A 32-bit bus word or command word (00_scope.md R7). -/
abbrev BusWord := BitVec 32

/-- A 12-bit byte address of the host register window (20_memory.md R50). -/
abbrev BusAddr := BitVec 12

/-- The number of an operand register, 0 to 15 (10_state.md R21). -/
abbrev Reg := Fin 16

end Sys2Proof
end

