-- ==== Sys2Proof/Syntax.lean ====
section
/-! DEFINITION. The command set as syntax: one constructor per row of spec/opcode_table.json (30_encoding.md R72).
A field the command does not use (class Z) is no argument: it must be 0 in the word (R71). -/

namespace Sys2Proof

/-- A decoded command of "CORE command set, revision 1". Operand classes (30_encoding.md R71): S a scalar register,
Q the even register of a pair, K a constant index. -/
inductive Instr where
  /-- ADDM rd, ra, rb, rm: S S S S (40_modular.md R102). -/
  | addm (rd ra rb rm : Reg)
  /-- SUBM rd, ra, rb, rm: S S S S (40_modular.md R104). -/
  | subm (rd ra rb rm : Reg)
  /-- MULM rd, ra, rb, rm: S S S S (40_modular.md R106). -/
  | mulm (rd ra rb rm : Reg)
  /-- EXPM rd, ra, rb, rm: S S S S, the exponent in rb (40_modular.md R108). -/
  | expm (rd ra rb rm : Reg)
  /-- INVM rd, ra, rm: S S S (40_modular.md R110). -/
  | invm (rd ra rm : Reg)
  /-- DIVM rd, ra, rb, rm: S S S S (40_modular.md R112). -/
  | divm (rd ra rb rm : Reg)
  /-- LDC rd, K: S K, K being the 4-bit ra field (40_modular.md R113). -/
  | ldc (rd : Reg) (k : Fin 16)
  /-- PADD rd, ra, rb: Q Q Q (41_curve.md R133). -/
  | padd (rd ra rb : Reg)
  /-- PDBL rd, ra: Q Q (41_curve.md R136). -/
  | pdbl (rd ra : Reg)
  /-- SMUL rd, ra, rb: Q S Q, the scalar in ra (41_curve.md R139). -/
  | smul (rd ra rb : Reg)
  /-- PUBK rd, ra: Q S (41_curve.md R141). -/
  | pubk (rd ra : Reg)
  /-- SIGN rd, ra, rb: Q S S, the digest in ra and the key in rb (42_ecdsa.md R162). -/
  | sign (rd ra rb : Reg)
  /-- VERIFY ra, rb, rm: S Q Q, the digest in ra, the public key in rb, the signature in rm (42_ecdsa.md R165). -/
  | verify (ra rb rm : Reg)
  deriving DecidableEq, Repr

end Sys2Proof
end

