-- ==== Sys2Proof/WellFormed.lean ====
section
/-! DEFINITION. Which commands are legal: every pair operand is even and LDC's constant index is at most 4
(30_encoding.md R71, R76). -/

namespace Sys2Proof

/-- A register number that names a pair, class Q: it is even (30_encoding.md R71). -/
def Reg.isPair (i : Reg) : Bool := i.val % 2 == 0

/-- The operand checks of 30_encoding.md R71. -/
def Instr.wf : Instr → Bool
  | .addm _ _ _ _ => true
  | .subm _ _ _ _ => true
  | .mulm _ _ _ _ => true
  | .expm _ _ _ _ => true
  | .invm _ _ _ => true
  | .divm _ _ _ _ => true
  | .ldc _ k => decide (k.val ≤ 4)
  | .padd rd ra rb => Reg.isPair rd && Reg.isPair ra && Reg.isPair rb
  | .pdbl rd ra => Reg.isPair rd && Reg.isPair ra
  | .smul rd _ rb => Reg.isPair rd && Reg.isPair rb
  | .pubk rd _ => Reg.isPair rd
  | .sign rd _ _ => Reg.isPair rd
  | .verify _ rb rm => Reg.isPair rb && Reg.isPair rm

/-- A legal command (30_encoding.md R74): the only kind the decoder hands to the engine. -/
abbrev Instr.WellFormed (i : Instr) : Prop := i.wf = true

end Sys2Proof
end

