-- ==== Sys2Proof/Decode.lean ====
section
/-! DEFINITION. The decoder, total over all 2^32 command words and rejecting by name (30_encoding.md R74 to R78), and
the encoder (R79), both from the field layout of R70 and the opcode map of R74. -/

namespace Sys2Proof

/-- How a command word fails to decode (30_encoding.md R77). -/
inductive DecodeError where
  /-- w[31:26] is a reserved opcode (30_encoding.md R75). -/
  | illegalOpcode
  /-- A known opcode with a nonzero reserved or unused field, an odd pair, or K ≥ 5 (30_encoding.md R76). -/
  | illegalOperand
  deriving DecidableEq, Repr

/-- The thirteen rows of the opcode map (30_encoding.md R74). -/
inductive Opcode where
  | addm | subm | mulm | expm | invm | divm | ldc | padd | pdbl | smul | pubk | sign | verify
  deriving DecidableEq, Repr

/-- The op field of a row (30_encoding.md R74). -/
def Opcode.bits : Opcode → BitVec 6
  | .addm => 0x01
  | .subm => 0x02
  | .mulm => 0x03
  | .expm => 0x04
  | .invm => 0x05
  | .divm => 0x06
  | .ldc => 0x07
  | .padd => 0x10
  | .pdbl => 0x11
  | .smul => 0x12
  | .pubk => 0x13
  | .sign => 0x20
  | .verify => 0x21

/-- The row of an op field; none for the 51 reserved values (30_encoding.md R75). -/
def Opcode.ofBits (b : BitVec 6) : Option Opcode :=
  match b.toNat with
  | 0x01 => some .addm
  | 0x02 => some .subm
  | 0x03 => some .mulm
  | 0x04 => some .expm
  | 0x05 => some .invm
  | 0x06 => some .divm
  | 0x07 => some .ldc
  | 0x10 => some .padd
  | 0x11 => some .pdbl
  | 0x12 => some .smul
  | 0x13 => some .pubk
  | 0x20 => some .sign
  | 0x21 => some .verify
  | _ => none

/-- The `match` column of the opcode map (30_encoding.md R74). -/
def Opcode.pattern : Opcode → BusWord
  | .addm => 0x04000000
  | .subm => 0x08000000
  | .mulm => 0x0C000000
  | .expm => 0x10000000
  | .invm => 0x14000000
  | .divm => 0x18000000
  | .ldc => 0x1C000000
  | .padd => 0x40000000
  | .pdbl => 0x44000000
  | .smul => 0x48000000
  | .pubk => 0x4C000000
  | .sign => 0x80000000
  | .verify => 0x84000000

/-- The `mask` column of the opcode map (30_encoding.md R74). -/
def Opcode.mask : Opcode → BusWord
  | .addm => 0xFC0003FF
  | .subm => 0xFC0003FF
  | .mulm => 0xFC0003FF
  | .expm => 0xFC0003FF
  | .invm => 0xFC03C3FF
  | .divm => 0xFC0003FF
  | .ldc => 0xFC03FFFF
  | .padd => 0xFC447FFF
  | .pdbl => 0xFC47FFFF
  | .smul => 0xFC407FFF
  | .pubk => 0xFC43FFFF
  | .sign => 0xFC403FFF
  | .verify => 0xFFC047FF

/-- The op field, w[31:26] (30_encoding.md R70). -/
def opField (w : BusWord) : BitVec 6 := w.extractLsb' 26 6

/-- A 4-bit operand field, w[lo+3:lo] (30_encoding.md R70, R73: the register number is the field value). -/
def operandField (w : BusWord) (lo : Nat) : Fin 16 := (w.extractLsb' lo 4).toFin

/-- rd, w[25:22]. -/
def rdField (w : BusWord) : Reg := operandField w 22

/-- ra, w[21:18]; for LDC the constant index K. -/
def raField (w : BusWord) : Reg := operandField w 18

/-- rb, w[17:14]. -/
def rbField (w : BusWord) : Reg := operandField w 14

/-- rm, w[13:10]. -/
def rmField (w : BusWord) : Reg := operandField w 10

/-- The command of a row with the operands of a word (30_encoding.md R72). -/
def Opcode.instr (o : Opcode) (w : BusWord) : Instr :=
  match o with
  | .addm => .addm (rdField w) (raField w) (rbField w) (rmField w)
  | .subm => .subm (rdField w) (raField w) (rbField w) (rmField w)
  | .mulm => .mulm (rdField w) (raField w) (rbField w) (rmField w)
  | .expm => .expm (rdField w) (raField w) (rbField w) (rmField w)
  | .invm => .invm (rdField w) (raField w) (rmField w)
  | .divm => .divm (rdField w) (raField w) (rbField w) (rmField w)
  | .ldc => .ldc (rdField w) (raField w)
  | .padd => .padd (rdField w) (raField w) (rbField w)
  | .pdbl => .pdbl (rdField w) (raField w)
  | .smul => .smul (rdField w) (raField w) (rbField w)
  | .pubk => .pubk (rdField w) (raField w)
  | .sign => .sign (rdField w) (raField w) (rbField w)
  | .verify => .verify (raField w) (rbField w) (rmField w)

/-- The decoder, its checks in the order of 30_encoding.md R78: the opcode, the row's mask, LDC's K. -/
def decode (w : BusWord) : Except DecodeError Instr :=
  match Opcode.ofBits (opField w) with
  | none => .error .illegalOpcode
  | some o =>
    if w &&& o.mask ≠ o.pattern then .error .illegalOperand
    else if o = .ldc ∧ (raField w).val > 4 then .error .illegalOperand
    else .ok (o.instr w)

/-- A command word from its fields, `op<<26 | rd<<22 | ra<<18 | rb<<14 | rm<<10`, with w[9:0] = 0
(30_encoding.md R79). -/
def assemble (op : BitVec 6) (rd ra rb rm : Fin 16) : BusWord :=
  op.zeroExtend 32 <<< 26 ||| BitVec.ofNat 32 rd.val <<< 22 ||| BitVec.ofNat 32 ra.val <<< 18
    ||| BitVec.ofNat 32 rb.val <<< 14 ||| BitVec.ofNat 32 rm.val <<< 10

/-- The row of a command. -/
def Instr.opcode : Instr → Opcode
  | .addm _ _ _ _ => .addm
  | .subm _ _ _ _ => .subm
  | .mulm _ _ _ _ => .mulm
  | .expm _ _ _ _ => .expm
  | .invm _ _ _ => .invm
  | .divm _ _ _ _ => .divm
  | .ldc _ _ => .ldc
  | .padd _ _ _ => .padd
  | .pdbl _ _ => .pdbl
  | .smul _ _ _ => .smul
  | .pubk _ _ => .pubk
  | .sign _ _ _ => .sign
  | .verify _ _ _ => .verify

/-- The word of a command, omitted fields 0 (30_encoding.md R79). -/
def encode (i : Instr) : BusWord :=
  match i with
  | .addm rd ra rb rm => assemble i.opcode.bits rd ra rb rm
  | .subm rd ra rb rm => assemble i.opcode.bits rd ra rb rm
  | .mulm rd ra rb rm => assemble i.opcode.bits rd ra rb rm
  | .expm rd ra rb rm => assemble i.opcode.bits rd ra rb rm
  | .invm rd ra rm => assemble i.opcode.bits rd ra 0 rm
  | .divm rd ra rb rm => assemble i.opcode.bits rd ra rb rm
  | .ldc rd k => assemble i.opcode.bits rd k 0 0
  | .padd rd ra rb => assemble i.opcode.bits rd ra rb 0
  | .pdbl rd ra => assemble i.opcode.bits rd ra 0 0
  | .smul rd ra rb => assemble i.opcode.bits rd ra rb 0
  | .pubk rd ra => assemble i.opcode.bits rd ra 0 0
  | .sign rd ra rb => assemble i.opcode.bits rd ra rb 0
  | .verify ra rb rm => assemble i.opcode.bits 0 ra rb rm

/-- The command word the opcode table's numbering gives: a command is one 32-bit number, carried whole by one bus
write, so bit 0 of the table is bit 0 of the word and there is no byte order to choose (30_encoding.md R70,
20_memory.md R52). -/
def tableWord (nbits w : Nat) : BusWord := BitVec.ofNat 32 (w % 2 ^ nbits)

/-- The instruction the decoder reads from a row's word, numbered as the opcode table numbers its bits. -/
def decodeTableWord (nbits w : Nat) : Option Instr :=
  match decode (tableWord nbits w) with
  | .ok i => some i
  | .error _ => none

end Sys2Proof
end

