-- ==== Sys2Proof/Machine/Arith.lean ====
section
/-! DEFINITION. The modular functions of 40_modular.md R101 to R111, on natural numbers: arithmetic is exact and then
reduced (00_scope.md R8), and the result is the normative value of each rule. Each function reduces its operands first,
and its result lies in [0, m), so its 256-bit value is the result itself (40_modular.md R116). The 256-bit datapaths of
R101 and R105, whose result alone is normative, stand in Machine/Datapath.lean. -/

namespace Sys2Proof.Machine

/-- `addM(a, b, m)`, for m ≥ 1 (40_modular.md R101). -/
def addM (a b m : Nat) : Nat := (a % m + b % m) % m

/-- `subM(a, b, m)`, for m ≥ 1: addition of the additive inverse (40_modular.md R103). -/
def subM (a b m : Nat) : Nat := addM a (m - b % m) m

/-- `mulM(a, b, m)`, for m ≥ 1 (40_modular.md R105). -/
def mulM (a b m : Nat) : Nat := (a % m) * (b % m) % m

/-- The square-and-multiply loop of 40_modular.md R107, `n` exponent bits to go, low to high. -/
def expLoop (m : Nat) : Nat → Nat → Nat → Nat → Nat
  | 0, _, result, _ => result
  | n + 1, e, result, sq =>
    expLoop m n (e / 2) (if e % 2 = 1 then mulM result sq m else result) (mulM sq sq m)

/-- `expM(a, e, m)`, for m ≥ 1: the base is reduced, the 256-bit exponent is not (40_modular.md R107). -/
def expM (a e m : Nat) : Nat := expLoop m 256 e (1 % m) (a % m)

/-- `invM(a, m)`, for m ≥ 3: Fermat's inverse, with no test that m is prime (40_modular.md R109). -/
def invM (a m : Nat) : Nat := expM a (m - 2) m

/-- `divM(a, b, m)`, for m ≥ 3 (40_modular.md R111). -/
def divM (a b m : Nat) : Nat := mulM a (expM b (m - 2) m) m

end Sys2Proof.Machine
end

