-- ==== Sys2Proof/Machine/Rom.lean ====
section
/-! DEFINITION. The constant ROM (10_state.md R30) and the ID value (R24). They are the spec's configuration, not state
(R35). -/

namespace Sys2Proof.Machine

/-- CONST[0], the field prime p (10_state.md R30). PRESUMED: the middle digits are the spec's general knowledge (GK1;
log entry 9). -/
def fieldPrime : Nat := 0xFFFFFFFFFFFFFFFFFFFFFFFFFFFFFFFFFFFFFFFFFFFFFFFFFFFFFFFEFFFFFC2F

/-- CONST[1], the group order n (10_state.md R30). PRESUMED: the spec's general knowledge (GK2; log entry 9). -/
def groupOrder : Nat := 0xFFFFFFFFFFFFFFFFFFFFFFFFFFFFFFFEBAAEDCE6AF48A03BBFD25E8CD0364141

/-- CONST[2], the x-coordinate of the generator (10_state.md R30). -/
def generatorX : Nat := 0x79BE667EF9DCBBAC55A06295CE870B07029BFCDB2DCE28D959F2815B16F81798

/-- CONST[3], the y-coordinate of the generator (10_state.md R30). -/
def generatorY : Nat := 0x483ADA7726A3C4655DA4FBFC0E1108A8FD17B448A68554199C47D08FFB10D4B8

/-- CONST[4], the curve coefficient b (10_state.md R30). -/
def curveB : Nat := 7

/-- CONST[k]; none for k ≥ 5, which no legal LDC names (10_state.md R30, 30_encoding.md R71). -/
def romEntry (k : Nat) : Option Word :=
  match k with
  | 0 => some (BitVec.ofNat 256 fieldPrime)
  | 1 => some (BitVec.ofNat 256 groupOrder)
  | 2 => some (BitVec.ofNat 256 generatorX)
  | 3 => some (BitVec.ofNat 256 generatorY)
  | 4 => some (BitVec.ofNat 256 curveB)
  | _ => none

/-- ID_VALUE (10_state.md R24). -/
def idValue : BusWord := 0x00ECC256

end Sys2Proof.Machine
end

