-- ==== Sys2Proof/Machine/Curve.lean ====
section
/-! DEFINITION. The point functions of 41_curve.md R130 to R138 on reduced affine coordinates, the identity held as
(0, 0) (10_state.md R22, 90_conflicts.md C9). -/

namespace Sys2Proof.Machine

/-- A point as its pair of coordinates (10_state.md R22). -/
structure Point where
  x : Nat
  y : Nat
  deriving DecidableEq, Repr

/-- `O`, the identity pair (0, 0) (10_state.md R22). -/
def identity : Point := ⟨0, 0⟩

/-- `G` (10_state.md R30). -/
def generator : Point := ⟨generatorX, generatorY⟩

/-- `fadd` (41_curve.md preamble). -/
def fadd (u v : Nat) : Nat := addM u v fieldPrime

/-- `fsub` (41_curve.md preamble). -/
def fsub (u v : Nat) : Nat := subM u v fieldPrime

/-- `fmul` (41_curve.md preamble). -/
def fmul (u v : Nat) : Nat := mulM u v fieldPrime

/-- `fdiv` (41_curve.md preamble). -/
def fdiv (u v : Nat) : Nat := divM u v fieldPrime

/-- A point operand: both coordinates reduced modulo P (41_curve.md R130). -/
def reducePoint (x y : Nat) : Point := ⟨x % fieldPrime, y % fieldPrime⟩

/-- `isId`, made on reduced coordinates (41_curve.md R130). -/
def isId (p : Point) : Bool := p.x == 0 && p.y == 0

/-- The rest of both formulas once λ is known: x3 = λ² − x1 − x2, y3 = λ(x1 − x3) − y1 (41_curve.md R132, R135). -/
def chord (l x1 y1 x2 : Nat) : Point :=
  let x3 := fsub (fsub (fmul l l) x1) x2
  ⟨x3, fsub (fmul l (fsub x1 x3)) y1⟩

/-- `pdbl` (41_curve.md R135). -/
def pdbl (p : Point) : Point :=
  if isId p then identity
  else if p.y = 0 then identity
  else chord (fdiv (fmul 3 (fmul p.x p.x)) (fadd p.y p.y)) p.x p.y p.x

/-- `padd`, the full entry point with its branches in the order of 41_curve.md R132. -/
def padd (p q : Point) : Point :=
  if isId p then q
  else if isId q then p
  else if p.x = q.x ∧ p.y = q.y then pdbl p
  else if p.x = q.x then identity
  else chord (fdiv (fsub q.y p.y) (fsub q.x p.x)) p.x p.y q.x

/-- The double-and-add loop of 41_curve.md R138, `n` scalar bits to go, bit 0 first, the conditional add before the
doubling. -/
def smulLoop : Nat → Nat → Point → Point → Point
  | 0, _, acc, _ => acc
  | n + 1, k, acc, add => smulLoop n (k / 2) (if k % 2 = 1 then padd acc add else acc) (pdbl add)

/-- `smul(k, (X, Y))`: all 256 bits of an unreduced scalar (41_curve.md R138). -/
def smul (k : Nat) (p : Point) : Point := smulLoop 256 k identity (reducePoint p.x p.y)

end Sys2Proof.Machine
end

