-- ==== Sys2Proof/Machine/State.lean ====
section
/-! DEFINITION. The state of the block as plain data (10_state.md R20, R35), what comes to it from outside, the
outcomes a step can stop with, and the state after reset (70_reset_and_hazards.md R200). -/

namespace Sys2Proof.Machine

/-- Why the machine stops: it never does. Every failure of a command completes it with an error code, a next state
(60_exceptions.md R180, R181), and a bus error goes back in the bus response (20_memory.md R53). "Nothing halts the
block." So this type has no constructor. Safe. -/
inductive Fault where
  deriving DecidableEq, Repr

/-- Why the model gives no meaning. -/
inductive Refusal where
  /-- Raised by an arm of `exec` whose instruction has no meaning yet; no arm raises it now. Safe. -/
  | notModelled (mnemonic : String)
  deriving DecidableEq, Repr

/-- The error codes a command can end with (60_exceptions.md R180). -/
inductive ErrorCode where
  /-- Code 1: w[31:26] is not in the opcode map. -/
  | illegalOpcode
  /-- Code 2: nonzero reserved bits or unused field, odd pair field, or LDC K ≥ 5. -/
  | illegalOperand
  /-- Code 3: x[rm] = 0 in ADDM, SUBM, MULM, EXPM. -/
  | modZero
  /-- Code 4: x[rm] ≤ 2 in INVM, DIVM. -/
  | precondition
  deriving DecidableEq, Repr

/-- One thing that happens next. The bus serialises the transactions of every host agent (20_memory.md R62, R65), an
engine step falls between two of them (R62 (2)), and reset is one atomic event (70_reset_and_hazards.md R200). -/
inductive Event where
  /-- `MemRead(a, 4)`: one bus read of a word (20_memory.md R53). -/
  | read (a : BusAddr)
  /-- `MemWrite(a, 4, v)`: one bus write of a word (20_memory.md R53). -/
  | write (a : BusAddr) (v : BusWord)
  /-- The delay LAT of the command in flight is over and the engine takes its step (60_exceptions.md R185,
  70_reset_and_hazards.md R210). -/
  | engine
  /-- The reset input; `taken` is how many draws a SIGN it abandons had taken (70_reset_and_hazards.md R200; log
  entry 5). -/
  | reset (taken : Nat)
  deriving DecidableEq, Repr

/-- What the bus answers to one transaction (20_memory.md R53 to R56). -/
inductive BusResponse where
  /-- A read: the data and whether it is a bus error. -/
  | read (data : BusWord) (busError : Bool)
  /-- A write: whether it is a bus error. -/
  | write (busError : Bool)
  deriving DecidableEq, Repr

/-- The state: the spec's record (10_state.md R35), then the model's three fields for what comes from outside. -/
structure State where
  /-- R[0] to R[15] (10_state.md R21). -/
  regs    : Vector Word 16
  /-- STATUS bit 0 (10_state.md R25). -/
  busy    : Bool
  /-- STATUS bit 1. -/
  done    : Bool
  /-- STATUS bit 2. -/
  err     : Bool
  /-- STATUS bit 3 (10_state.md R29). -/
  z       : Bool
  /-- STATUS bit 4 (10_state.md R36). -/
  vres    : Bool
  /-- STATUS bit 5 (10_state.md R37). -/
  ovr     : Bool
  /-- STATUS bits 11:8 (60_exceptions.md R180). -/
  errcode : BitVec 4
  /-- CTRL bit 0 (10_state.md R27). -/
  irqen   : Bool
  /-- CMDLAST, also the command in flight while BUSY = 1 (10_state.md R28, R34). -/
  cmdlast : BusWord
  /-- The model's own: what happens next, oldest first (log entry 1). -/
  events  : List Event
  /-- The model's own: what the random-number port will supply, oldest first (10_state.md R33; log entry 3). -/
  draws   : List Word
  /-- The model's own: the bus response to the transaction last performed (log entry 6). -/
  resp    : Option BusResponse
  deriving DecidableEq, Repr

/-- The state right after reset (70_reset_and_hazards.md R200), with nothing placed outside (DESIGN CHOICE, log
entries 1, 3 and 6). -/
def State.reset : State where
  regs := Vector.replicate 16 0
  busy := false
  done := false
  err := false
  z := false
  vres := false
  ovr := false
  errcode := 0
  irqen := false
  cmdlast := 0
  events := []
  draws := []
  resp := none

end Sys2Proof.Machine
end

