-- ==== Sys2Proof/Machine/Operands.lean ====
section
/-! DEFINITION. Every operand form: reading and writing a scalar register (class S) and a register pair (class Q), and
a word of a register as the window shows it (00_scope.md R10; 10_state.md R22; 20_memory.md R52, R55). The constant
index (class K) reads Machine/Rom.lean. No register is hardwired (10_state.md R21). -/

namespace Sys2Proof.Machine

/-- The odd register of a pair: the field value + 1 (30_encoding.md R73). For an odd 15, which no legal command names,
it wraps to 0 (log entry 12). -/
def pairY (i : Reg) : Reg := i + 1

/-- `x[i]` (00_scope.md R10). -/
def State.x (s : State) (i : Reg) : Word := s.regs[i.val]

/-- `x[i] <- v` (00_scope.md R10). -/
def State.setX (s : State) (i : Reg) (v : Word) : State := { s with regs := s.regs.set i.val v }

/-- The value of a scalar operand, an unsigned integer (00_scope.md R8). -/
def State.val (s : State) (i : Reg) : Nat := (s.x i).toNat

/-- A point operand `pair(i)`, both coordinates reduced modulo P (41_curve.md R130). -/
def State.point (s : State) (i : Reg) : Point := reducePoint (s.val i) (s.val (pairY i))

/-- `x[i] <- a; x[i+1] <- b` (00_scope.md R10). -/
def State.setPair (s : State) (i : Reg) (a b : Nat) : State :=
  (s.setX i (BitVec.ofNat 256 a)).setX (pairY i) (BitVec.ofNat 256 b)

/-- The lowest bit of word k of a register: word 0 is the most significant (20_memory.md R52). -/
def wordLsb (k : Fin 8) : Nat := 224 - 32 * k.val

/-- `v[255-32k : 224-32k]` (20_memory.md R52). -/
def wordOf (v : Word) (k : Fin 8) : BusWord := v.extractLsb' (wordLsb k) 32

/-- `v` with bits [255-32k : 224-32k] replaced by w (20_memory.md R55). -/
def replaceWord (v : Word) (k : Fin 8) (w : BusWord) : Word :=
  (v &&& ~~~((BitVec.allOnes 32).zeroExtend 256 <<< wordLsb k)) ||| (w.zeroExtend 256 <<< wordLsb k)

end Sys2Proof.Machine
end

