-- ==== Sys2Proof/Machine/Flags.lean ====
section
/-! DEFINITION. Every flag computation: the Z flag (10_state.md R29), the error codes (60_exceptions.md R180), the
STATUS and CTRL words as the host reads them (10_state.md R25, R27), and the interrupt output (R32). -/

namespace Sys2Proof.Machine

/-- Z of a scalar result: the result is 0 (10_state.md R29). -/
def zeroFlag (v : Nat) : Bool := v == 0

/-- Z of a point result: the result is the identity (10_state.md R29). -/
def identityFlag (p : Point) : Bool := isId p

/-- The code in STATUS.ERRCODE (60_exceptions.md R180). -/
def ErrorCode.code : ErrorCode → BitVec 4
  | .illegalOpcode => 1
  | .illegalOperand => 2
  | .modZero => 3
  | .precondition => 4

/-- STATUS: 31:12 and 7:6 read 0 (10_state.md R25). -/
def State.statusWord (s : State) : BusWord :=
  (0 : BitVec 20) ++ s.errcode ++ (0 : BitVec 2) ++ BitVec.ofBool s.ovr ++ BitVec.ofBool s.vres ++ BitVec.ofBool s.z
    ++ BitVec.ofBool s.err ++ BitVec.ofBool s.done ++ BitVec.ofBool s.busy

/-- CTRL: 31:1 read 0 (10_state.md R27). -/
def State.ctrlWord (s : State) : BusWord := (0 : BitVec 31) ++ BitVec.ofBool s.irqen

/-- `irq = STATUS.DONE AND CTRL.IRQEN` (10_state.md R32). -/
def State.irq (s : State) : Bool := s.done && s.irqen

end Sys2Proof.Machine
end

