-- ==== Sys2Proof/Machine/Ops.lean ====
section
/-! DEFINITION. What every command shares: acceptance (20_memory.md R57), completion (60_exceptions.md R185) and
completion with an error, which is this block's taking of an exception (R181, R186). There is no return instruction:
the host ends its handling by clearing DONE or by the next acceptance (R188), both bus writes (Machine/Bus.lean). -/

namespace Sys2Proof.Machine

/-- What is left to happen. -/
def State.setEvents (s : State) (events : List Event) : State := { s with events := events }

/-- The bus answers the host (20_memory.md R53). -/
def State.respond (s : State) (r : BusResponse) : State := { s with resp := some r }

/-- A write of w to CMD while idle accepts the command (20_memory.md R57). Z, OVR, CTRL and the registers stay. -/
def State.accept (s : State) (w : BusWord) : State :=
  { s with cmdlast := w, busy := true, done := false, err := false, errcode := 0, vres := false }

/-- `complete` (60_exceptions.md R185). -/
def State.complete (s : State) : State :=
  { s with busy := false, done := true, err := false, errcode := 0 }

/-- `raise e`: the command ends with an error code; no operand register, Z, CTRL, CMDLAST or OVR is written
(60_exceptions.md R181). What is saved is ERRCODE and CMDLAST (R186). -/
def State.raise (s : State) (e : ErrorCode) : State :=
  { s with busy := false, done := true, err := true, errcode := e.code }

/-- `x[rd] <- v; Z <- (v = 0); complete` (40_modular.md R102 and the other scalar commands). -/
def State.finishScalar (s : State) (rd : Reg) (v : Nat) : State :=
  { s.setX rd (BitVec.ofNat 256 v) with z := zeroFlag v }.complete

/-- `pair(rd) <- p; Z <- isId(p); complete` (41_curve.md R133 and the other point commands). -/
def State.finishPoint (s : State) (rd : Reg) (p : Point) : State :=
  { s.setPair rd p.x p.y with z := identityFlag p }.complete

/-- `x[rd] <- r; x[rd+1] <- s; complete`, the draws the command took having left the port (42_ecdsa.md R162, R163). Z
and VRES stay (10_state.md R29, R36). -/
def State.finishSignature (s : State) (rd : Reg) (r sv : Nat) (rest : List Word) : State :=
  { s.setPair rd r sv with draws := rest }.complete

/-- `VRES <- v; complete` (42_ecdsa.md R165). Z stays (10_state.md R29). -/
def State.finishVerdict (s : State) (v : Bool) : State := { s with vres := v }.complete

/-- The modulus check of ADDM, SUBM, MULM and EXPM, then the result (40_modular.md R100). -/
def State.checkedModZero (s : State) (rd rm : Reg) (result : Nat) : State :=
  if s.val rm = 0 then s.raise .modZero else s.finishScalar rd result

/-- The modulus check of INVM and DIVM, then the result (40_modular.md R100). -/
def State.checkedPrecondition (s : State) (rd rm : Reg) (result : Nat) : State :=
  if s.val rm ≤ 2 then s.raise .precondition else s.finishScalar rd result

end Sys2Proof.Machine
end

