-- ==== Sys2Proof/Machine/Bus.lean ====
section
/-! DEFINITION. The host register window: the address map and every bus transaction (20_memory.md R50 to R60). The
contents of the window are the registers themselves, stored once; no memory stands behind it (R50; log entry 11). -/

namespace Sys2Proof.Machine

/-- What a byte address of the window names (20_memory.md R51). -/
inductive BusTarget where
  /-- 0x000. -/
  | id
  /-- 0x004. -/
  | ctrl
  /-- 0x008. -/
  | status
  /-- 0x00C. -/
  | cmd
  /-- Word k of Ri, at 0x100 + 0x20·i + 4·k. -/
  | word (i : Reg) (k : Fin 8)
  /-- Misaligned (R53) or unmapped (R54). -/
  | busError
  deriving DecidableEq, Repr

/-- The address map, alignment first (20_memory.md R51, R53 to R55). -/
def busTarget (a : BusAddr) : BusTarget :=
  let n := a.toNat
  if n % 4 ≠ 0 then .busError
  else if n = 0x000 then .id
  else if n = 0x004 then .ctrl
  else if n = 0x008 then .status
  else if n = 0x00C then .cmd
  else if 0x100 ≤ n ∧ n ≤ 0x2FF then .word (Fin.ofNat 16 ((n - 0x100) / 32)) (Fin.ofNat 8 (n / 4 % 8))
  else .busError

/-- A word of the register window: 0 while a command is in flight (20_memory.md R55, R56). -/
def State.windowWord (s : State) (i : Reg) (k : Fin 8) : BusWord :=
  if s.busy then 0 else wordOf (s.x i) k

/-- The bus response to a read; a read changes nothing else (20_memory.md R53 to R56, R60). -/
def State.readResponse (s : State) (a : BusAddr) : BusResponse :=
  match busTarget a with
  | .id => .read idValue false
  | .ctrl => .read s.ctrlWord false
  | .status => .read s.statusWord false
  | .cmd => .read s.cmdlast false
  | .word i k => .read (s.windowWord i k) false
  | .busError => .read 0 true

/-- `MemRead(a, 4)` (20_memory.md R55, R60). -/
def State.busRead (s : State) (a : BusAddr) : State := s.respond (s.readResponse a)

/-- A write dropped because a command is in flight (20_memory.md R58). -/
def State.dropWrite (s : State) : State := { s with ovr := true }

/-- A write to CTRL: only IRQEN takes the value (20_memory.md R59). -/
def State.writeCtrl (s : State) (v : BusWord) : State := { s with irqen := v.getLsbD 0 }

/-- A write to STATUS: write 1 to clear DONE (bit 1) and OVR (bit 5) (20_memory.md R59). Clearing DONE is how a host
ends its handling of a completion (60_exceptions.md R188). -/
def State.writeStatus (s : State) (v : BusWord) : State :=
  { s with done := s.done && !v.getLsbD 1, ovr := s.ovr && !v.getLsbD 5 }

/-- A write to CMD: accepted while idle, dropped while busy (20_memory.md R57, R58). The word is not decoded here. -/
def State.writeCmd (s : State) (v : BusWord) : State := if s.busy then s.dropWrite else s.accept v

/-- A write to word k of Ri, dropped while busy (20_memory.md R55, R58). -/
def State.writeWord (s : State) (i : Reg) (k : Fin 8) (v : BusWord) : State :=
  if s.busy then s.dropWrite else s.setX i (replaceWord (s.x i) k v)

/-- What a write does to the block (20_memory.md R53 to R59). -/
def State.writeEffect (s : State) (a : BusAddr) (v : BusWord) : State :=
  match busTarget a with
  | .id => s
  | .ctrl => s.writeCtrl v
  | .status => s.writeStatus v
  | .cmd => s.writeCmd v
  | .word i k => s.writeWord i k v
  | .busError => s

/-- The bus response to a write: a bus error exactly when misaligned or unmapped (20_memory.md R53, R54, R58, R59). -/
def writeResponse (a : BusAddr) : BusResponse := .write (busTarget a == .busError)

/-- `MemWrite(a, 4, v)` (20_memory.md R53 to R59). -/
def State.busWrite (s : State) (a : BusAddr) (v : BusWord) : State :=
  (s.writeEffect a v).respond (writeResponse a)

end Sys2Proof.Machine
end

