-- ==== Sys2Proof/Machine/Ecdsa.lean ====
section
/-! DEFINITION. The functions `sign` and `verify` of 42_ecdsa.md R161 and R164. -/

namespace Sys2Proof.Machine

/-- One pass of the loop of 42_ecdsa.md R161 with nonce k: the signature, or none where a guard makes the loop draw
again (k = 0, k ≥ N, r = 0 or s = 0). -/
def signWith (z d k : Nat) : Option (Nat × Nat) :=
  if k = 0 ∨ groupOrder ≤ k then none
  else
    let r := (smul k generator).x % groupOrder
    if r = 0 then none
    else
      let s := divM (addM (mulM r d groupOrder) z groupOrder) k groupOrder
      if s = 0 then none else some (r, s)

/-- `sign(z, d)` over the draws the port supplies: the signature of the first draw that passes every guard, and the
draws left after it; none where no draw passes (42_ecdsa.md R161, R163). -/
def signLoop (z d : Nat) : List Word → Option ((Nat × Nat) × List Word)
  | [] => none
  | k :: rest =>
    match signWith z d k.toNat with
    | some rs => some (rs, rest)
    | none => signLoop z d rest

/-- `verify(z, Q, r, s)` (42_ecdsa.md R164). -/
def verifySig (z qx qy r s : Nat) : Bool :=
  if r = 0 ∨ s = 0 ∨ groupOrder ≤ r ∨ groupOrder ≤ s then false
  else
    let w := invM s groupOrder
    let u1 := mulM z w groupOrder
    let u2 := mulM r w groupOrder
    let pt := padd (smul u1 generator) (smul u2 (reducePoint qx qy))
    if isId pt then false else pt.x % groupOrder == r

end Sys2Proof.Machine
end

