-- ==== Sys2Proof/Machine/EcdsaUnit.lean ====
section
/-! DEFINITION. The ECDSA unit: SIGN and VERIFY (42_ecdsa.md R162, R165). Both leave Z unchanged (10_state.md R29). -/

namespace Sys2Proof.Machine

/-- SIGN: digest in ra, key in rb; r to Rd and s to Rd+1, and the draws it took leave the port (42_ecdsa.md R162). While
the port supplies no usable nonce there is no completing step: nothing changes and BUSY stays 1 (R163; log entry 4). -/
def execSign (rd ra rb : Reg) (s : State) : Host.Outcome State Fault Refusal :=
  match signLoop (s.val ra) (s.val rb) s.draws with
  | some (rs, rest) => .next (s.finishSignature rd rs.1 rs.2 rest)
  | none => .next s

/-- VERIFY: digest in ra, public key in rb, signature (r, s) in rm; it writes VRES and no register (42_ecdsa.md R165). -/
def execVerify (ra rb rm : Reg) (s : State) : Host.Outcome State Fault Refusal :=
  .next (s.finishVerdict
    (verifySig (s.val ra) (s.val rb) (s.val (pairY rb)) (s.val rm) (s.val (pairY rm))))

end Sys2Proof.Machine
end

