-- ==== Sys2Proof/Machine/ModularUnit.lean ====
section
/-! DEFINITION. The modular unit: ADDM, SUBM, MULM, EXPM, INVM, DIVM and LDC (40_modular.md R102 to R113). Sources are
read in the state the command finds, before the destination is written (00_scope.md R11). -/

namespace Sys2Proof.Machine

/-- ADDM (40_modular.md R102). -/
def execAddm (rd ra rb rm : Reg) (s : State) : Host.Outcome State Fault Refusal :=
  .next (s.checkedModZero rd rm (addM (s.val ra) (s.val rb) (s.val rm)))

/-- SUBM (40_modular.md R104). -/
def execSubm (rd ra rb rm : Reg) (s : State) : Host.Outcome State Fault Refusal :=
  .next (s.checkedModZero rd rm (subM (s.val ra) (s.val rb) (s.val rm)))

/-- MULM (40_modular.md R106). -/
def execMulm (rd ra rb rm : Reg) (s : State) : Host.Outcome State Fault Refusal :=
  .next (s.checkedModZero rd rm (mulM (s.val ra) (s.val rb) (s.val rm)))

/-- EXPM: base in ra, exponent in rb (40_modular.md R108). -/
def execExpm (rd ra rb rm : Reg) (s : State) : Host.Outcome State Fault Refusal :=
  .next (s.checkedModZero rd rm (expM (s.val ra) (s.val rb) (s.val rm)))

/-- INVM (40_modular.md R110). -/
def execInvm (rd ra rm : Reg) (s : State) : Host.Outcome State Fault Refusal :=
  .next (s.checkedPrecondition rd rm (invM (s.val ra) (s.val rm)))

/-- DIVM (40_modular.md R112). -/
def execDivm (rd ra rb rm : Reg) (s : State) : Host.Outcome State Fault Refusal :=
  .next (s.checkedPrecondition rd rm (divM (s.val ra) (s.val rb) (s.val rm)))

/-- LDC: CONST[K], and ILLEGAL_OPERAND for K ≥ 5, which the decoder has already raised (40_modular.md R113). -/
def execLdc (rd : Reg) (k : Fin 16) (s : State) : Host.Outcome State Fault Refusal :=
  match romEntry k.val with
  | some v => .next (s.finishScalar rd v.toNat)
  | none => .next (s.raise .illegalOperand)

end Sys2Proof.Machine
end

