-- ==== Sys2Proof/Machine/PointUnit.lean ====
section
/-! DEFINITION. The point unit: PADD, PDBL, SMUL and PUBK (41_curve.md R133 to R141). No command raises a
value-dependent error (R134). -/

namespace Sys2Proof.Machine

/-- PADD (41_curve.md R133). -/
def execPadd (rd ra rb : Reg) (s : State) : Host.Outcome State Fault Refusal :=
  .next (s.finishPoint rd (padd (s.point ra) (s.point rb)))

/-- PDBL (41_curve.md R136). -/
def execPdbl (rd ra : Reg) (s : State) : Host.Outcome State Fault Refusal :=
  .next (s.finishPoint rd (pdbl (s.point ra)))

/-- SMUL: scalar in ra, point in rb (41_curve.md R139). -/
def execSmul (rd ra rb : Reg) (s : State) : Host.Outcome State Fault Refusal :=
  .next (s.finishPoint rd (smul (s.val ra) (s.point rb)))

/-- PUBK: the scalar multiple of G; the private key's range is not checked (41_curve.md R141). -/
def execPubk (rd ra : Reg) (s : State) : Host.Outcome State Fault Refusal :=
  .next (s.finishPoint rd (smul (s.val ra) generator))

end Sys2Proof.Machine
end

