-- ==== Sys2Proof/Machine/Dispatch.lean ====
section
/-! DEFINITION. The effect of a decoded command at the engine step: one arm per constructor of Instr
(60_exceptions.md R185). -/

namespace Sys2Proof.Machine

/-- "execute the rule of w's opcode" (60_exceptions.md R185). -/
def exec (i : Instr) (s : State) : Host.Outcome State Fault Refusal :=
  match i with
  -- the modular unit, 40_modular.md
  | .addm rd ra rb rm => Sys2Proof.Machine.execAddm rd ra rb rm s
  | .subm rd ra rb rm => Sys2Proof.Machine.execSubm rd ra rb rm s
  | .mulm rd ra rb rm => Sys2Proof.Machine.execMulm rd ra rb rm s
  | .expm rd ra rb rm => Sys2Proof.Machine.execExpm rd ra rb rm s
  | .invm rd ra rm => Sys2Proof.Machine.execInvm rd ra rm s
  | .divm rd ra rb rm => Sys2Proof.Machine.execDivm rd ra rb rm s
  | .ldc rd k => Sys2Proof.Machine.execLdc rd k s
  -- the point unit, 41_curve.md
  | .padd rd ra rb => Sys2Proof.Machine.execPadd rd ra rb s
  | .pdbl rd ra => Sys2Proof.Machine.execPdbl rd ra s
  | .smul rd ra rb => Sys2Proof.Machine.execSmul rd ra rb s
  | .pubk rd ra => Sys2Proof.Machine.execPubk rd ra s
  -- the ECDSA unit, 42_ecdsa.md
  | .sign rd ra rb => Sys2Proof.Machine.execSign rd ra rb s
  | .verify ra rb rm => Sys2Proof.Machine.execVerify ra rb rm s

end Sys2Proof.Machine
end

