-- ==== Sys2Proof/Machine/Engine.lean ====
section
/-! DEFINITION. The engine step (60_exceptions.md R185), the reset event (70_reset_and_hazards.md R200), and what each
event does. -/

namespace Sys2Proof.Machine

/-- The error a rejected command word ends with (30_encoding.md R75, R76, R78). -/
def decodeErrorCode : DecodeError → ErrorCode
  | .illegalOpcode => .illegalOpcode
  | .illegalOperand => .illegalOperand

/-- `EngineStep`: decode CMDLAST, then execute or raise (60_exceptions.md R185). -/
def engineStep (s : State) : Host.Outcome State Fault Refusal :=
  match decode s.cmdlast with
  | .ok i => exec i s
  | .error e => .next (s.raise (decodeErrorCode e))

/-- The engine's turn: it steps exactly when STATUS.BUSY = 1 (20_memory.md R62 (2), 60_exceptions.md R185). -/
def engineTurn (s : State) : Host.Outcome State Fault Refusal :=
  if s.busy then engineStep s else .next s

/-- The command in flight is a SIGN, the only command that draws (10_state.md R33). -/
def State.signInFlight (s : State) : Bool :=
  s.busy && match decode s.cmdlast with
    | .ok (.sign _ _ _) => true
    | _ => false

/-- The reset event: every piece of state to its reset value; an abandoned SIGN's draws are discarded
(70_reset_and_hazards.md R200; log entry 5). What comes from outside goes on. -/
def State.resetEvent (s : State) (taken : Nat) : State :=
  { State.reset with
    events := s.events
    draws := if s.signInFlight then s.draws.drop taken else s.draws }

/-- What one event does (20_memory.md R62). -/
def performEvent (e : Event) (s : State) : Host.Outcome State Fault Refusal :=
  match e with
  | .read a => .next (s.busRead a)
  | .write a v => .next (s.busWrite a v)
  | .engine => engineTurn s
  | .reset taken => .next (s.resetEvent taken)

/-- The next step: the oldest event, which leaves the list; with no event left, the engine's turn, since a command in
flight completes after a finite delay (70_reset_and_hazards.md R210; log entry 2). -/
def nextStep (s : State) : Host.Outcome State Fault Refusal :=
  match s.events with
  | [] => engineTurn s
  | e :: rest => performEvent e (s.setEvents rest)

/-- `w` accepted as the command in flight, and the engine's turn next (log entry 7). -/
def State.issue (s : State) (w : BusWord) : State :=
  (s.accept w).setEvents (.engine :: s.events)

end Sys2Proof.Machine
end

