-- ==== Sys2Proof/Machine/Step.lean ====
section
/-! DEFINITION. The step of the machine, and how a command word is placed where it runs next. -/

namespace Sys2Proof.Machine

/-- One step: one event of the host, the engine or the reset input (20_memory.md R62, 60_exceptions.md R185). -/
def step (s : State) : Host.Outcome State Fault Refusal := nextStep s

/-- `s` with the command of a table word in flight and the engine's turn next: the block fetches nothing
(20_memory.md R64); a command comes by a CMD write (R57), for which this stands (log entry 7). -/
def State.withFetchWord (s : State) (nbits w : Nat) : State := s.issue (tableWord nbits w)

end Sys2Proof.Machine
end

