-- ==== Sys2Proof/Machine/Datapath.lean ====
section
/-! DEFINITION. The 256-bit datapaths the source requires of the adder and the multiplier: no value wider than 256 bits
is formed (40_modular.md R101, R105). The commands use the normative results of Machine/Arith.lean; that a datapath
gives the same result is a claim, not a definition. -/

namespace Sys2Proof.Machine

/-- The adder's datapath: a native 256-bit add with carry out, then the correction (40_modular.md R101).
`2^256 - 1 - m + 1`, the "lost" quantity, is formed modulo 2^256. -/
def adderDatapath (a b m : Word) : Word :=
  let ar := a % m
  let br := b % m
  let sum := ar + br
  if sum < ar then sum + (BitVec.allOnes 256 - m + 1)
  else if m ≤ sum then sum - m
  else sum

/-- The double-and-add loop of 40_modular.md R105 over the bits of `small`, at most `n` of them. -/
def multiplierLoop (m : Word) : Nat → Word → Word → Word → Word
  | 0, _, acc, _ => acc
  | n + 1, small, acc, add =>
    if small = 0 then acc
    else multiplierLoop m n (small >>> 1) (if small.getLsbD 0 then adderDatapath acc add m else acc)
      (adderDatapath add add m)

/-- The multiplier's datapath: the smaller reduced operand is scanned, the larger is doubled (40_modular.md R105,
90_conflicts.md C6). -/
def multiplierDatapath (a b m : Word) : Word :=
  let ar := a % m
  let br := b % m
  if ar ≤ br then multiplierLoop m 256 ar 0 br else multiplierLoop m 256 br 0 ar

end Sys2Proof.Machine
end

