-- ==== Sys2Proof/Safety.lean ====
section
/-! DEFINITION. What the spec promises of every state the block can be in (10_state.md R25, R36), in the terms the
claims use. -/

namespace Sys2Proof.Machine

/-- The last accepted command word is a VERIFY. -/
def State.lastIsVerify (s : State) : Prop := ∃ ra rb rm, decode s.cmdlast = .ok (.verify ra rb rm)

/-- The legal values of STATUS (10_state.md R25, R36). -/
structure State.Legal (s : State) : Prop where
  /-- "BUSY and DONE are never both 1" (10_state.md R25). -/
  busy_excludes_done : s.busy = true → s.done = false
  /-- "ERR = 1 exactly when ERRCODE ≠ 0" (10_state.md R25). -/
  err_iff_errcode : s.err = true ↔ s.errcode ≠ 0
  /-- "ERRCODE takes only the values 0 to 4" (10_state.md R25). -/
  errcode_le_four : s.errcode.toNat ≤ 4
  /-- ERR is cleared at acceptance and set only at completion (10_state.md R25). -/
  busy_excludes_err : s.busy = true → s.err = false
  /-- "after any command other than a successful true VERIFY, VRES reads 0" (10_state.md R36). -/
  vres_from_verify : s.vres = true → s.busy = false ∧ s.err = false ∧ s.lastIsVerify

end Sys2Proof.Machine
end

