-- ==== Sys2Proof/Certificates/Slice0/Obligations.lean ====
section
/-! DEFINITION. The statements for the provers. The vocabulary comes first (namespace Sys2Proof.Claims): what a
completed command leaves, and the spec's formulas written out again, away from the definitions the model computes with. -/

namespace Sys2Proof.Claims

open Sys2Proof.Machine

/-- A command completed with success (60_exceptions.md R185), and nothing outside its own results changed. -/
structure Succeeded (s t : State) : Prop where
  busy : t.busy = false
  done : t.done = true
  err : t.err = false
  errcode : t.errcode = 0
  ovr : t.ovr = s.ovr
  irqen : t.irqen = s.irqen
  cmdlast : t.cmdlast = s.cmdlast
  events : t.events = s.events
  resp : t.resp = s.resp

/-- A scalar command completed with v in rd: Z tells whether v is 0 (10_state.md R29); every other register, VRES and
the port are as before. -/
structure ScalarResult (s t : State) (rd : Reg) (v : Nat) : Prop extends Succeeded s t where
  result : (t.x rd).toNat = v
  others : ∀ r, r ≠ rd → t.x r = s.x r
  z : t.z = decide (v = 0)
  vres : t.vres = s.vres
  draws : t.draws = s.draws

/-- A point command completed with (x, y) in the pair rd: Z tells whether it is the identity (10_state.md R29); every
other register, VRES and the port are as before. -/
structure PairResult (s t : State) (rd : Reg) (x y : Nat) : Prop extends Succeeded s t where
  resultX : (t.x rd).toNat = x
  resultY : (t.x (rd + 1)).toNat = y
  others : ∀ r, r ≠ rd → r ≠ rd + 1 → t.x r = s.x r
  z : t.z = decide (x = 0 ∧ y = 0)
  vres : t.vres = s.vres
  draws : t.draws = s.draws

/-- A SIGN completed with (r, sv) in the pair rd and `rest` left at the port: Z, VRES and every other register are as
before. -/
structure SignatureResult (s t : State) (rd : Reg) (r sv : Nat) (rest : List Word) : Prop extends Succeeded s t where
  resultR : (t.x rd).toNat = r
  resultS : (t.x (rd + 1)).toNat = sv
  others : ∀ q, q ≠ rd → q ≠ rd + 1 → t.x q = s.x q
  z : t.z = s.z
  vres : t.vres = s.vres
  draws : t.draws = rest

/-- A command ended with an error code and nothing else changed (60_exceptions.md R181). -/
structure ErrorResult (s t : State) (code : BitVec 4) : Prop where
  busy : t.busy = false
  done : t.done = true
  err : t.err = true
  errcode : t.errcode = code
  regs : ∀ r, t.x r = s.x r
  z : t.z = s.z
  vres : t.vres = s.vres
  ovr : t.ovr = s.ovr
  irqen : t.irqen = s.irqen
  cmdlast : t.cmdlast = s.cmdlast
  events : t.events = s.events
  draws : t.draws = s.draws
  resp : t.resp = s.resp

/-- A register number that names a pair (30_encoding.md R71). -/
def IsPair (i : Reg) : Prop := i.val % 2 = 0

/-- The point a pair of registers holds, reduced modulo P (41_curve.md R130). -/
def pointAt (s : State) (i : Reg) : Point := ⟨s.val i % fieldPrime, s.val (i + 1) % fieldPrime⟩

/-- `r` is the double of the reduced point `p`, by the formulas of 41_curve.md R135 read modulo P: λ·2y = 3x². -/
def IsDouble (p r : Point) : Prop :=
  r.x < fieldPrime ∧ r.y < fieldPrime ∧
  if p = ⟨0, 0⟩ ∨ p.y = 0 then r = ⟨0, 0⟩
  else ∃ l : ZMod fieldPrime, l * (2 * p.y) = 3 * (p.x : ZMod fieldPrime) ^ 2 ∧
    (r.x : ZMod fieldPrime) = l ^ 2 - 2 * p.x ∧ (r.y : ZMod fieldPrime) = l * (p.x - r.x) - p.y

/-- `r` is the sum of the reduced points `p` and `q`, by the branches and formulas of 41_curve.md R132 read modulo P:
λ·(x2 − x1) = y2 − y1. -/
def IsSum (p q r : Point) : Prop :=
  r.x < fieldPrime ∧ r.y < fieldPrime ∧
  if p = ⟨0, 0⟩ then r = q
  else if q = ⟨0, 0⟩ then r = p
  else if p = q then IsDouble p r
  else if p.x = q.x then r = ⟨0, 0⟩
  else ∃ l : ZMod fieldPrime, l * ((q.x : ZMod fieldPrime) - p.x) = (q.y : ZMod fieldPrime) - p.y ∧
    (r.x : ZMod fieldPrime) = l ^ 2 - p.x - q.x ∧ (r.y : ZMod fieldPrime) = l * (p.x - r.x) - p.y

/-- The loop of 41_curve.md R138 as a fold over the 256 bit positions, the conditional add before the doubling. -/
def scanBits (k : Nat) (p : Point) : Point :=
  ((List.range 256).foldl (fun a i => (if k.testBit i then padd a.1 a.2 else a.1, pdbl a.2)) (⟨0, 0⟩, p)).1

/-- secp256k1: y² = x³ + 7 over the integers modulo P (41_curve.md preamble). -/
def curve : WeierstrassCurve.Affine (ZMod fieldPrime) := ⟨0, 0, 0, 0, 7⟩

/-- A pair of reduced coordinates denotes a point of the curve, (0, 0) the point at infinity (10_state.md R22). -/
def Denotes (p : Point) : curve.Point → Prop
  | .zero => p = ⟨0, 0⟩
  | .some x y _ => p.x < fieldPrime ∧ p.y < fieldPrime ∧ (p.x : ZMod fieldPrime) = x ∧ (p.y : ZMod fieldPrime) = y

/-- The nonce k passes every guard of 42_ecdsa.md R161 and gives the signature (r, sv). -/
def NonceGives (z d k r sv : Nat) : Prop :=
  0 < k ∧ k < groupOrder ∧ r = (smul k generator).x % groupOrder ∧ r ≠ 0 ∧
    sv = (r * d + z) * k ^ (groupOrder - 2) % groupOrder ∧ sv ≠ 0

/-- The nonce k fails a guard of 42_ecdsa.md R161. -/
def NonceRejected (z d k : Nat) : Prop := ∀ r sv, ¬ NonceGives z d k r sv

/-- The test of 42_ecdsa.md R164, with w = 1/s by Fermat. -/
def Accepts (z : Nat) (q : Point) (r sv : Nat) : Prop :=
  0 < r ∧ r < groupOrder ∧ 0 < sv ∧ sv < groupOrder ∧
  ∃ w pt, w = sv ^ (groupOrder - 2) % groupOrder ∧
    pt = padd (smul (z * w % groupOrder) generator) (smul (r * w % groupOrder) q) ∧
    pt ≠ ⟨0, 0⟩ ∧ pt.x % groupOrder = r

/-- The rows of the opcode map: op, match, mask (30_encoding.md R74). -/
def opcodeMap : List (BitVec 6 × BusWord × BusWord) :=
  [(0x01, 0x04000000, 0xFC0003FF), (0x02, 0x08000000, 0xFC0003FF), (0x03, 0x0C000000, 0xFC0003FF),
   (0x04, 0x10000000, 0xFC0003FF), (0x05, 0x14000000, 0xFC03C3FF), (0x06, 0x18000000, 0xFC0003FF),
   (0x07, 0x1C000000, 0xFC03FFFF), (0x10, 0x40000000, 0xFC447FFF), (0x11, 0x44000000, 0xFC47FFFF),
   (0x12, 0x48000000, 0xFC407FFF), (0x13, 0x4C000000, 0xFC43FFFF), (0x20, 0x80000000, 0xFC403FFF),
   (0x21, 0x84000000, 0xFFC047FF)]

/-- The op of each command, written out from the opcode map (30_encoding.md R74). -/
def mapOp : Instr → BitVec 6
  | .addm _ _ _ _ => 0x01
  | .subm _ _ _ _ => 0x02
  | .mulm _ _ _ _ => 0x03
  | .expm _ _ _ _ => 0x04
  | .invm _ _ _ => 0x05
  | .divm _ _ _ _ => 0x06
  | .ldc _ _ => 0x07
  | .padd _ _ _ => 0x10
  | .pdbl _ _ => 0x11
  | .smul _ _ _ => 0x12
  | .pubk _ _ => 0x13
  | .sign _ _ _ => 0x20
  | .verify _ _ _ => 0x21

/-- w[31:26]. -/
def opOf (w : BusWord) : BitVec 6 := w.extractLsb' 26 6

/-- The op field is in the opcode map. -/
abbrev KnownOpcode (w : BusWord) : Prop := ∃ row ∈ opcodeMap, row.1 = opOf w

/-- w is a command with legal operands: `(w AND mask) = match`, plus K ≤ 4 for LDC (30_encoding.md R74). -/
abbrev LegalWord (w : BusWord) : Prop :=
  ∃ row ∈ opcodeMap, w &&& row.2.2 = row.2.1 ∧ (row.1 = 0x07 → (w.extractLsb' 18 4).toNat ≤ 4)

/-- x[rm] for the command word w. -/
def modulusOf (s : State) (w : BusWord) : Nat := s.val ((w.extractLsb' 10 4).toFin)

/-- The code a command word ends with in a state: the first failing check of 60_exceptions.md R182, or 0. -/
def firstError (s : State) (w : BusWord) : BitVec 4 :=
  if ¬ KnownOpcode w then 1
  else if ¬ LegalWord w then 2
  else if opOf w ∈ [0x01#6, 0x02#6, 0x03#6, 0x04#6] ∧ modulusOf s w = 0 then 3
  else if opOf w ∈ [0x05#6, 0x06#6] ∧ modulusOf s w ≤ 2 then 4
  else 0

/-- The registers a command names as its destination (30_encoding.md R72). -/
def destinations : Instr → List Reg
  | .addm rd _ _ _ => [rd]
  | .subm rd _ _ _ => [rd]
  | .mulm rd _ _ _ => [rd]
  | .expm rd _ _ _ => [rd]
  | .invm rd _ _ => [rd]
  | .divm rd _ _ _ => [rd]
  | .ldc rd _ => [rd]
  | .padd rd _ _ => [rd, rd + 1]
  | .pdbl rd _ => [rd, rd + 1]
  | .smul rd _ _ => [rd, rd + 1]
  | .pubk rd _ => [rd, rd + 1]
  | .sign rd _ _ => [rd, rd + 1]
  | .verify _ _ _ => []

/-- Word k of Ri, by its byte address (20_memory.md R52). -/
def wordAddr (i : Reg) (k : Fin 8) : BusAddr := BitVec.ofNat 12 (0x100 + 0x20 * i.val + 4 * k.val)

/-- A read or a write by the host. -/
def IsHostEvent : Event → Prop
  | .read _ => True
  | .write _ _ => True
  | .engine => False
  | .reset _ => False

end Sys2Proof.Claims

open Sys2Proof Sys2Proof.Machine Sys2Proof.Claims

/-! ### Encoding -/

/-- Derived from 30_encoding.md R78 and R79: no bit of an encoding is dropped, for every command and every operand. -/
def Obligations.DecodeOfEncode : Prop := ∀ i : Instr, i.WellFormed → decode (encode i) = .ok i

/-- Derived from 30_encoding.md R74, R78 and R79: a word that decodes is the one encoding of its command, and that
command is legal. -/
def Obligations.EncodeOfDecode : Prop :=
  ∀ (w : BusWord) (i : Instr), decode w = .ok i → i.WellFormed ∧ encode i = w

/-- 30_encoding.md R74: the decoder accepts exactly the words of the opcode map, and reads from each the command the map
names for its op. -/
def Obligations.DecoderFollowsOpcodeMap : Prop :=
  (∀ w : BusWord, (∃ i, decode w = .ok i) ↔ LegalWord w) ∧
  ∀ (w : BusWord) (i : Instr), decode w = .ok i →
    opOf w = mapOp i ∧ ∃ row ∈ opcodeMap, row.1 = mapOp i ∧ w &&& row.2.2 = row.2.1

/-- Sanity, 30_encoding.md R81: its seventeen example words, at least one of each of the thirteen commands. -/
def Obligations.ExampleWordsDecode : Prop :=
  decode 0x04C49000 = .ok (.addm 3 1 2 4) ∧ decode 0x08C49000 = .ok (.subm 3 1 2 4) ∧
  decode 0x0CC49000 = .ok (.mulm 3 1 2 4) ∧ decode 0x10C49000 = .ok (.expm 3 1 2 4) ∧
  decode 0x14C41000 = .ok (.invm 3 1 4) ∧ decode 0x18C49000 = .ok (.divm 3 1 2 4) ∧
  decode 0x1C000000 = .ok (.ldc 0 0) ∧ decode 0x1C440000 = .ok (.ldc 1 1) ∧ decode 0x1C880000 = .ok (.ldc 2 2) ∧
  decode 0x1CCC0000 = .ok (.ldc 3 3) ∧ decode 0x1D100000 = .ok (.ldc 4 4) ∧
  decode 0x41008000 = .ok (.padd 4 0 2) ∧ decode 0x45800000 = .ok (.pdbl 6 0) ∧
  decode 0x4A040000 = .ok (.smul 8 1 0) ∧ decode 0x4E940000 = .ok (.pubk 10 5) ∧
  decode 0x83048000 = .ok (.sign 12 1 2) ∧ decode 0x84053000 = .ok (.verify 1 4 12)

/-- 30_encoding.md R75: a word with a reserved opcode (51 values, the all-zero word among them) is accepted by the CMD
write like any other and completes at its engine step with code 1; no operand register changes. -/
def Obligations.ReservedOpcodeCompletesWithCode1 : Prop :=
  ∀ (s : State) (w : BusWord) (rest : List Event),
    ((w >>> 26).toNat = 0 ∨ (0x08 ≤ (w >>> 26).toNat ∧ (w >>> 26).toNat ≤ 0x0F) ∨
      (0x14 ≤ (w >>> 26).toNat ∧ (w >>> 26).toNat ≤ 0x1F) ∨ 0x22 ≤ (w >>> 26).toNat) →
    s.busy = false → s.events = .write 0x00C w :: .engine :: rest →
    ∃ u t, step s = .next u ∧ u.busy = true ∧ u.cmdlast = w ∧ step u = .next t ∧
      ErrorResult (u.setEvents rest) t 1 ∧ ∀ r, t.x r = s.x r

/-- 30_encoding.md R76: a word of a known opcode that fails its row's mask test, or an LDC with K ≥ 5, completes at its
engine step with code 2 and changes no operand register. -/
def Obligations.IllegalOperandCompletesWithCode2 : Prop :=
  ∀ (s : State) (row : BitVec 6 × BusWord × BusWord), row ∈ opcodeMap → s.busy = true →
    s.cmdlast.extractLsb' 26 6 = row.1 →
    (s.cmdlast &&& row.2.2 ≠ row.2.1 ∨ (row.1 = 0x07 ∧ 5 ≤ (s.cmdlast.extractLsb' 18 4).toNat)) →
    ∃ t, engineTurn s = .next t ∧ ErrorResult s t 2

/-- 60_exceptions.md R182: a command reports the first failing check, opcode, then operand, then value, and no error
where none fails (a SIGN may still be waiting, as it was); bus errors and dropped writes leave ERR and ERRCODE. -/
def Obligations.ErrorsInPriorityOrder : Prop :=
  (∀ s : State, s.busy = true → s.err = false → ∃ t, engineTurn s = .next t ∧
    (firstError s s.cmdlast ≠ 0 → ErrorResult s t (firstError s s.cmdlast)) ∧
    (firstError s s.cmdlast = 0 → t.err = false)) ∧
  ∀ (s t : State) (a : BusAddr) (v : BusWord) (rest : List Event), step s = .next t →
    (s.events = .read a :: rest ∨ s.events = .write a v :: rest) →
    (s.busy = true ∨ a.toNat % 4 ≠ 0 ∨ (0x010 ≤ a.toNat ∧ a.toNat ≤ 0x0FF) ∨ 0x300 ≤ a.toNat) →
    t.err = s.err ∧ t.errcode = s.errcode

/-! ### The modular unit -/

/-- 40_modular.md R102: ADDM completes with (a + b) mod m. -/
def Obligations.AddmResult : Prop :=
  ∀ (rd ra rb rm : Reg) (s : State), s.val rm ≠ 0 →
    ∃ t, exec (.addm rd ra rb rm) s = .next t ∧ ScalarResult s t rd ((s.val ra + s.val rb) % s.val rm)

/-- 40_modular.md R104: SUBM completes with (a − b) mod m, taken in [0, m), as an integer. -/
def Obligations.SubmResult : Prop :=
  ∀ (rd ra rb rm : Reg) (s : State), s.val rm ≠ 0 →
    ∃ t v, exec (.subm rd ra rb rm) s = .next t ∧ ScalarResult s t rd v ∧
      (v : Int) = ((s.val ra : Int) - (s.val rb : Int)) % (s.val rm : Int)

/-- 40_modular.md R106: MULM completes with a·b mod m. -/
def Obligations.MulmResult : Prop :=
  ∀ (rd ra rb rm : Reg) (s : State), s.val rm ≠ 0 →
    ∃ t, exec (.mulm rd ra rb rm) s = .next t ∧ ScalarResult s t rd (s.val ra * s.val rb % s.val rm)

/-- 40_modular.md R107, R108: EXPM completes with a^e mod m for the whole 256-bit exponent, not reduced. -/
def Obligations.ExpmResult : Prop :=
  ∀ (rd ra rb rm : Reg) (s : State), s.val rm ≠ 0 →
    ∃ t, exec (.expm rd ra rb rm) s = .next t ∧ ScalarResult s t rd (s.val ra ^ s.val rb % s.val rm)

/-- 40_modular.md R109, R110: INVM completes with a^(m−2) mod m, which is the inverse where m is prime and a is not 0
modulo m. -/
def Obligations.InvmResult : Prop :=
  ∀ (rd ra rm : Reg) (s : State), 2 < s.val rm →
    ∃ t, exec (.invm rd ra rm) s = .next t ∧ ScalarResult s t rd (s.val ra ^ (s.val rm - 2) % s.val rm) ∧
      ((s.val rm).Prime → s.val ra % s.val rm ≠ 0 → s.val ra * t.val rd % s.val rm = 1)

/-- 40_modular.md R111, R112: DIVM completes with a·b^(m−2) mod m, 0 where b is 0 modulo m. -/
def Obligations.DivmResult : Prop :=
  ∀ (rd ra rb rm : Reg) (s : State), 2 < s.val rm →
    ∃ t, exec (.divm rd ra rb rm) s = .next t ∧
      ScalarResult s t rd (s.val ra * s.val rb ^ (s.val rm - 2) % s.val rm) ∧
      (s.val rb % s.val rm = 0 → t.val rd = 0 ∧ t.z = true)

/-- 40_modular.md R113, 10_state.md R30: LDC with K ≤ 4 completes with CONST[K] and Z = 0. The clause for K ≥ 5 is about
a term no word decodes to: that it ends with ILLEGAL_OPERAND there too is the model's choice (log entry 12); the spec's
rule for such a word is IllegalOperandCompletesWithCode2. -/
def Obligations.LdcResult : Prop :=
  ∀ (rd : Reg) (k : Fin 16) (s : State),
    (k.val ≤ 4 → ∃ t, exec (.ldc rd k) s = .next t ∧ t.z = false ∧ ScalarResult s t rd
      ([0xFFFFFFFFFFFFFFFFFFFFFFFFFFFFFFFFFFFFFFFFFFFFFFFFFFFFFFFEFFFFFC2F,
        0xFFFFFFFFFFFFFFFFFFFFFFFFFFFFFFFEBAAEDCE6AF48A03BBFD25E8CD0364141,
        0x79BE667EF9DCBBAC55A06295CE870B07029BFCDB2DCE28D959F2815B16F81798,
        0x483ADA7726A3C4655DA4FBFC0E1108A8FD17B448A68554199C47D08FFB10D4B8, 7].getD k.val 0)) ∧
    (5 ≤ k.val → ∃ t, exec (.ldc rd k) s = .next t ∧ ErrorResult s t 2)

/-- 40_modular.md R100: a modulus of 0 ends ADDM, SUBM, MULM and EXPM with MOD_ZERO, a modulus of at most 2 ends INVM
and DIVM with PRECONDITION, and LDC has no value check. -/
def Obligations.ModulusChecks : Prop :=
  ∀ (rd ra rb rm : Reg) (s : State),
    (s.val rm = 0 → ∀ i ∈ [Instr.addm rd ra rb rm, .subm rd ra rb rm, .mulm rd ra rb rm, .expm rd ra rb rm],
      ∃ t, exec i s = .next t ∧ ErrorResult s t 3) ∧
    (s.val rm ≤ 2 → ∀ i ∈ [Instr.invm rd ra rm, .divm rd ra rb rm], ∃ t, exec i s = .next t ∧ ErrorResult s t 4) ∧
    ∀ k : Fin 16, k.val ≤ 4 → ∃ t, exec (.ldc rd k) s = .next t ∧ t.err = false

/-- Derived from 40_modular.md R101 to R111, the consequences that R114 draws ("They are consequences, not extra rules"):
the source's laws, for every prime p > 2 a register can hold. -/
def Obligations.ModularLaws : Prop :=
  ∀ a b p : Nat, p.Prime → 2 < p → p < 2 ^ 256 →
    addM a b p = addM b a p ∧ subM (addM a b p) b p = a % p ∧ (a % p ≠ 0 → mulM a (divM 1 a p) p = 1)

/-- Derived from 40_modular.md R101 ("the datapath's result equals the exact formula", the spec's own inference): the
adder's 256-bit datapath, with its overflow correction, gives the exact sum, in [0, m). -/
def Obligations.AdderDatapathIsExact : Prop :=
  ∀ a b m : Word, m ≠ 0 →
    (adderDatapath a b m).toNat = (a.toNat % m.toNat + b.toNat % m.toNat) % m.toNat ∧
    (adderDatapath a b m).toNat = addM a.toNat b.toNat m.toNat ∧ (adderDatapath a b m).toNat < m.toNat

/-- 40_modular.md R105: the multiplier's double-and-add datapath, in 256-bit words only, gives the exact product. -/
def Obligations.MultiplierDatapathIsExact : Prop :=
  ∀ a b m : Word, m ≠ 0 →
    (multiplierDatapath a b m).toNat = (a.toNat % m.toNat) * (b.toNat % m.toNat) % m.toNat ∧
    (multiplierDatapath a b m).toNat = mulM a.toNat b.toNat m.toNat

/-! ### The point unit -/

/-- 41_curve.md R132, R133: PADD completes with the sum by the branches of R132. -/
def Obligations.PaddResult : Prop :=
  ∀ (rd ra rb : Reg) (s : State), IsPair rd → IsPair ra → IsPair rb →
    ∃ t r, exec (.padd rd ra rb) s = .next t ∧ IsSum (pointAt s ra) (pointAt s rb) r ∧ PairResult s t rd r.x r.y

/-- 41_curve.md R135, R136: PDBL completes with the double. -/
def Obligations.PdblResult : Prop :=
  ∀ (rd ra : Reg) (s : State), IsPair rd → IsPair ra →
    ∃ t r, exec (.pdbl rd ra) s = .next t ∧ IsDouble (pointAt s ra) r ∧ PairResult s t rd r.x r.y

/-- 41_curve.md R138, R139, R141: SMUL and PUBK complete with the 256-bit scan of an unreduced scalar, PUBK's point
being G; the result is reduced. -/
def Obligations.SmulAndPubkResult : Prop :=
  ∀ (rd ra rb : Reg) (s : State), IsPair rd →
    (IsPair rb → ∃ t r, exec (.smul rd ra rb) s = .next t ∧ r = scanBits (s.val ra) (pointAt s rb) ∧
      r.x < fieldPrime ∧ r.y < fieldPrime ∧ PairResult s t rd r.x r.y) ∧
    ∃ t r, exec (.pubk rd ra) s = .next t ∧ r = scanBits (s.val ra)
        ⟨0x79BE667EF9DCBBAC55A06295CE870B07029BFCDB2DCE28D959F2815B16F81798,
          0x483ADA7726A3C4655DA4FBFC0E1108A8FD17B448A68554199C47D08FFB10D4B8⟩ ∧
      r.x < fieldPrime ∧ r.y < fieldPrime ∧ PairResult s t rd r.x r.y

/-- Derived from 41_curve.md R140: 0·P = O, 1·P = P reduced, k·O = O, N·G = O, and k·G = (k mod N)·G for every 256-bit
k. -/
def Obligations.SmulIdentities : Prop :=
  (∀ p : Point, smul 0 p = ⟨0, 0⟩ ∧ smul 1 p = ⟨p.x % fieldPrime, p.y % fieldPrime⟩) ∧
  (∀ k : Nat, smul k ⟨0, 0⟩ = ⟨0, 0⟩) ∧ smul groupOrder generator = ⟨0, 0⟩ ∧
  ∀ k < 2 ^ 256, smul k generator = smul (k % groupOrder) generator

/-- Derived from 41_curve.md R130 to R136: on points of the curve, PADD adds and PDBL doubles in the group of
y² = x³ + 7 over the field of P. -/
def Obligations.PaddAndPdblAreTheGroupLaw : Prop :=
  ∀ [Fact fieldPrime.Prime] (rd ra rb : Reg) (s : State) (A B : curve.Point), IsPair rd → IsPair ra → IsPair rb →
    Denotes (pointAt s ra) A → Denotes (pointAt s rb) B →
    (∃ t, exec (.padd rd ra rb) s = .next t ∧ Denotes (pointAt t rd) (A + B)) ∧
    ∃ t, exec (.pdbl rd ra) s = .next t ∧ Denotes (pointAt t rd) (A + A)

/-- Derived from 41_curve.md R138 to R141: on points of the curve, SMUL is the group's scalar multiple by the whole
256-bit scalar, and PUBK is that multiple of G. -/
def Obligations.SmulAndPubkAreGroupMultiples : Prop :=
  ∀ [Fact fieldPrime.Prime] (rd ra rb : Reg) (s : State) (A G : curve.Point), IsPair rd → IsPair rb →
    Denotes (pointAt s rb) A → Denotes ⟨generatorX, generatorY⟩ G →
    (∃ t, exec (.smul rd ra rb) s = .next t ∧ Denotes (pointAt t rd) (s.val ra • A)) ∧
    ∃ t, exec (.pubk rd ra) s = .next t ∧ Denotes (pointAt t rd) (s.val ra • G)

/-! ### The ECDSA unit -/

/-- 42_ecdsa.md R161 to R163: SIGN takes exactly the rejected draws and the first usable one, writes the signature that
nonce gives, in range, and leaves Z, VRES and every other register. -/
def Obligations.SignResult : Prop :=
  ∀ (rd ra rb : Reg) (s : State) (rejected rest : List Word) (k : Word) (r sv : Nat), IsPair rd →
    s.draws = rejected ++ k :: rest → (∀ j ∈ rejected, NonceRejected (s.val ra) (s.val rb) j.toNat) →
    NonceGives (s.val ra) (s.val rb) k.toNat r sv →
    ∃ t, exec (.sign rd ra rb) s = .next t ∧ SignatureResult s t rd r sv rest ∧
      1 ≤ r ∧ r ≤ groupOrder - 1 ∧ 1 ≤ sv ∧ sv ≤ groupOrder - 1

/-- Derived from 42_ecdsa.md R163 (log entry 4, the model's reading of "no completing step"): while the port supplies no
usable nonce, SIGN changes nothing and BUSY stays as it is. -/
def Obligations.SignWaitsForAUsableNonce : Prop :=
  ∀ (rd ra rb : Reg) (s : State), (∀ j ∈ s.draws, NonceRejected (s.val ra) (s.val rb) j.toNat) →
    exec (.sign rd ra rb) s = .next s

/-- 42_ecdsa.md R164, R165: VERIFY completes, writes VRES by the test of R164, and writes no register and no Z. -/
def Obligations.VerifyResult : Prop :=
  ∀ (ra rb rm : Reg) (s : State), IsPair rb → IsPair rm →
    ∃ t, exec (.verify ra rb rm) s = .next t ∧ Succeeded s t ∧ (∀ r, t.x r = s.x r) ∧ t.z = s.z ∧
      t.draws = s.draws ∧
      (t.vres = true ↔ Accepts (s.val ra) (pointAt s rb) (s.val rm) (s.val (rm + 1)))

/-- 42_ecdsa.md R166: verification never raises an error on signature values; r or s zero or at least N gives VRES = 0
with ERR = 0. -/
def Obligations.InvalidSignatureIsFalse : Prop :=
  ∀ (ra rb rm : Reg) (s : State), IsPair rb → IsPair rm →
    ∃ t, exec (.verify ra rb rm) s = .next t ∧ t.err = false ∧ t.errcode = 0 ∧
      ((s.val rm = 0 ∨ s.val (rm + 1) = 0 ∨ groupOrder ≤ s.val rm ∨ groupOrder ≤ s.val (rm + 1)) → t.vres = false)

/-- Derived from 42_ecdsa.md R161 and R164, the inference of R167 ("it holds for every z and every 256-bit d"): a
signature SIGN completes with, for any digest, any 256-bit key and any nonces, verifies under the public key of that
private key. It rests on the digits of P and N (log entry 9). -/
def Obligations.SignThenVerify : Prop :=
  ∀ (rd ra rb va vb vm : Reg) (s t u : State), IsPair rd → IsPair vb → IsPair vm →
    s.busy = true → exec (.sign rd ra rb) s = .next t → t.busy = false →
    u.val va = s.val ra →
    u.val vb = (smul (s.val rb) generator).x → u.val (vb + 1) = (smul (s.val rb) generator).y →
    u.val vm = t.val rd → u.val (vm + 1) = t.val (rd + 1) →
    ∃ v, exec (.verify va vb vm) u = .next v ∧ v.vres = true

/-! ### The host window -/

/-- 20_memory.md R55: reads and writes of the register window, word 0 the most significant. -/
def Obligations.WindowReadsAndWrites : Prop :=
  ∀ (s : State) (i : Reg) (k : Fin 8) (v : BusWord) (rest : List Event),
    (s.events = .read (wordAddr i k) :: rest → ∃ data,
      step s = .next ((s.setEvents rest).respond (.read data false)) ∧
      data.toNat = if s.busy then 0 else s.val i / 2 ^ (224 - 32 * k.val) % 2 ^ 32) ∧
    (s.events = .write (wordAddr i k) v :: rest → s.busy = true →
      step s = .next { s with ovr := true, events := rest, resp := some (.write false) }) ∧
    (s.events = .write (wordAddr i k) v :: rest → s.busy = false → ∃ t, step s = .next t ∧
      t = { s with regs := t.regs, events := rest, resp := some (.write false) } ∧ (∀ r, r ≠ i → t.x r = s.x r) ∧
      ∀ j < 256, (t.x i).getLsbD j =
        if 224 - 32 * k.val ≤ j ∧ j ≤ 255 - 32 * k.val then v.getLsbD (j - (224 - 32 * k.val)) else (s.x i).getLsbD j)

/-- 20_memory.md R56: while BUSY = 1 a read of the register window gives 0 and no bus error, the registers staying;
ID, CTRL, STATUS and CMD read as they do while idle. -/
def Obligations.BusyWindowReadsZero : Prop :=
  ∀ (s : State) (a : BusAddr) (rest : List Event), s.busy = true → s.events = .read a :: rest →
    (0x100 ≤ a.toNat → a.toNat ≤ 0x2FF → a.toNat % 4 = 0 →
      step s = .next ((s.setEvents rest).respond (.read 0 false))) ∧
    (a.toNat ≤ 0x00C → a.toNat % 4 = 0 → ∃ data,
      step s = .next ((s.setEvents rest).respond (.read data false)) ∧
      data = if a.toNat = 0 then 0x00ECC256 else if a.toNat = 4 then s.ctrlWord
        else if a.toNat = 8 then s.statusWord else s.cmdlast)

/-- Derived from 10_state.md R24, R25, R27 and R28: what ID, CTRL, STATUS and CMD read as, field by field. -/
def Obligations.ControlRegisterReads : Prop :=
  ∀ (s : State) (rest : List Event),
    (s.events = .read 0x000 :: rest → step s = .next ((s.setEvents rest).respond (.read 0x00ECC256 false))) ∧
    (s.events = .read 0x004 :: rest → ∃ data,
      step s = .next ((s.setEvents rest).respond (.read data false)) ∧ data.toNat = s.irqen.toNat) ∧
    (s.events = .read 0x008 :: rest → ∃ data,
      step s = .next ((s.setEvents rest).respond (.read data false)) ∧
      data.toNat = s.busy.toNat + 2 * s.done.toNat + 4 * s.err.toNat + 8 * s.z.toNat + 16 * s.vres.toNat
        + 32 * s.ovr.toNat + 256 * s.errcode.toNat) ∧
    (s.events = .read 0x00C :: rest → step s = .next ((s.setEvents rest).respond (.read s.cmdlast false)))

/-- 20_memory.md R53, R54: a misaligned or unmapped access is a bus error, read data 0, and changes nothing. -/
def Obligations.BusErrorsChangeNothing : Prop :=
  ∀ (s : State) (a : BusAddr) (v : BusWord) (rest : List Event),
    (a.toNat % 4 ≠ 0 ∨ (0x010 ≤ a.toNat ∧ a.toNat ≤ 0x0FF) ∨ (0x300 ≤ a.toNat ∧ a.toNat ≤ 0xFFF)) →
    (s.events = .read a :: rest → step s = .next ((s.setEvents rest).respond (.read 0 true))) ∧
    (s.events = .write a v :: rest → step s = .next ((s.setEvents rest).respond (.write true)))

/-- 20_memory.md R57: a CMD write while idle accepts any word at all, and Z, OVR, CTRL and the registers stay. -/
def Obligations.CmdWriteAccepts : Prop :=
  ∀ (s : State) (w : BusWord) (rest : List Event), s.busy = false → s.events = .write 0x00C w :: rest →
    step s = .next { s with
      cmdlast := w, busy := true, done := false, err := false, errcode := 0, vres := false, events := rest,
      resp := some (.write false) }

/-- 20_memory.md R58: while BUSY = 1, writes to CMD and the register window are dropped and set OVR; writes to CTRL and
STATUS take effect; the command in flight stays. -/
def Obligations.BusyWritesAreDropped : Prop :=
  ∀ (s : State) (a : BusAddr) (v : BusWord) (rest : List Event), s.busy = true → s.events = .write a v :: rest →
    (a.toNat = 0x00C ∨ (0x100 ≤ a.toNat ∧ a.toNat ≤ 0x2FF ∧ a.toNat % 4 = 0) →
      step s = .next { s with ovr := true, events := rest, resp := some (.write false) }) ∧
    (a.toNat = 0x004 →
      step s = .next { s with irqen := v.getLsbD 0, events := rest, resp := some (.write false) }) ∧
    (a.toNat = 0x008 →
      step s = .next { s with
        done := s.done && !v.getLsbD 1, ovr := s.ovr && !v.getLsbD 5, events := rest, resp := some (.write false) }) ∧
    ∃ t, step s = .next t ∧ t.busy = true ∧ t.cmdlast = s.cmdlast ∧ t.regs = s.regs

/-- 20_memory.md R59: writes to STATUS, CTRL and ID, busy or not. -/
def Obligations.ControlRegisterWrites : Prop :=
  ∀ (s : State) (v : BusWord) (rest : List Event),
    (s.events = .write 0x008 v :: rest → step s = .next { s with
      done := if v.getLsbD 1 then false else s.done, ovr := if v.getLsbD 5 then false else s.ovr,
      events := rest, resp := some (.write false) }) ∧
    (s.events = .write 0x004 v :: rest → step s = .next { s with
      irqen := v.getLsbD 0, events := rest, resp := some (.write false) }) ∧
    (s.events = .write 0x000 v :: rest → step s = .next ((s.setEvents rest).respond (.write false)))

/-- Derived from 20_memory.md R55 to R59, as R60 sums it up: no read has a side effect, and a read repeated after
nothing but reads answers the same; a write to the window, CTRL, ID or STATUS is idempotent; of two writes to CMD the
second is seen, since the first issued a command. -/
def Obligations.ReadsAreHarmlessAndWritesIdempotent : Prop :=
  (∀ (s t : State) (a : BusAddr) (rest : List Event), s.events = .read a :: rest → step s = .next t →
    t = { s with events := rest, resp := t.resp }) ∧
  (∀ (s : State) (a : BusAddr) (others : List BusAddr) (rest : List Event),
    s.events = .read a :: (others.map .read ++ .read a :: rest) →
    ∃ t u : State, step s = .next t ∧ Host.Core.run Sys2Proof.core (others.length + 2) s = .next u ∧
      u.events = rest ∧ u.resp = t.resp) ∧
  (∀ (s t : State) (a : BusAddr) (v : BusWord) (rest : List Event), a.toNat ≠ 0x00C →
    s.events = .write a v :: .write a v :: rest → step s = .next t →
    step t = .next (t.setEvents rest)) ∧
  ∀ (s t : State) (v : BusWord) (rest : List Event), s.busy = false → s.ovr = false →
    s.events = .write 0x00C v :: .write 0x00C v :: rest → step s = .next t →
    ∃ u, step t = .next u ∧ u ≠ t.setEvents rest

/-- Derived from 20_memory.md R56 and R58: while a command is in flight, whatever the host reads and writes, it learns
nothing of the registers or of the draws: runs that differ in these alone answer alike and differ in these alone. -/
def Obligations.HostLearnsNothingWhileBusy : Prop :=
  ∀ (hostEvents rest : List Event) (s : State) (regs' : Vector Word 16) (draws' : List Word),
    (∀ e ∈ hostEvents, IsHostEvent e) → s.events = hostEvents ++ rest → s.busy = true →
    ∃ t : State, Host.Core.run Sys2Proof.core hostEvents.length s = .next t ∧ t.events = rest ∧
      Host.Core.run Sys2Proof.core hostEvents.length { s with regs := regs', draws := draws' } =
        .next { t with regs := regs', draws := draws' }

/-- Derived from 20_memory.md R58 and R62 (4): from acceptance to the engine step, whatever the host does, the command
in flight and its operands stay as they were, so the engine step sees them so. -/
def Obligations.OperandsStableInFlight : Prop :=
  ∀ (hostEvents rest : List Event) (s : State) (i : Instr),
    (∀ e ∈ hostEvents, IsHostEvent e) → s.events = hostEvents ++ .engine :: rest → s.busy = true →
    decode s.cmdlast = .ok i →
    ∃ t : State, Host.Core.run Sys2Proof.core hostEvents.length s = .next t ∧ t.busy = true ∧
      t.cmdlast = s.cmdlast ∧ t.regs = s.regs ∧ t.draws = s.draws ∧ step t = exec i (t.setEvents rest)

/-- Derived from 20_memory.md R57, R62 and 60_exceptions.md R185: a legal word written to CMD while idle runs at the
engine's next turn, on the registers as the host left them. -/
def Obligations.CommandThroughTheBus : Prop :=
  ∀ (s : State) (w : BusWord) (i : Instr) (rest : List Event), s.busy = false → decode w = .ok i →
    s.events = .write 0x00C w :: .engine :: rest →
    ∃ u, step s = .next u ∧ u.regs = s.regs ∧ step u = exec i (u.setEvents rest) ∧
      u.setEvents rest = ((s.accept w).setEvents rest).respond (.write false)

/-! ### The machine as a whole -/

/-- Derived from 60_exceptions.md R185 (log entries 2 and 7, the model's own order of events): a step runs the decoded
command in flight when the engine's turn comes, at once when no event is pending; an idle engine does nothing; and
withFetchWord places a table word so. -/
def Obligations.StepRunsTheDecodedCommand : Prop :=
  (∀ (s : State) (i : Instr), s.busy = true → s.events = [] → decode s.cmdlast = .ok i → step s = exec i s) ∧
  (∀ (s : State) (i : Instr) (rest : List Event), s.busy = true → s.events = .engine :: rest →
    decode s.cmdlast = .ok i → step s = exec i (s.setEvents rest)) ∧
  (∀ (s : State) (rest : List Event), s.busy = false → s.events = .engine :: rest →
    step s = .next (s.setEvents rest)) ∧
  ∀ (s : State) (nbits w : Nat) (i : Instr), decodeTableWord nbits w = some i →
    step (s.withFetchWord nbits w) = exec i (s.accept (tableWord nbits w))

/-- Derived from 10_state.md R25 and R36: every step keeps the legal values of STATUS. -/
def Obligations.StepKeepsLegal : Prop := ∀ s t : State, s.Legal → step s = .next t → t.Legal

/-- Derived from 10_state.md R25 and 70_reset_and_hazards.md R200: the state after reset is legal, whatever waits outside
(log entries 1 and 3). -/
def Obligations.ResetIsLegal : Prop :=
  State.reset.Legal ∧ ∀ (events : List Event) (draws : List Word),
    State.Legal { State.reset with events := events, draws := draws }

/-- Derived from 70_reset_and_hazards.md R200, as R201 sums it up: a reset, in any state, leaves every register, flag and
field at the value of R200, and so is the machine's first state. A SIGN it abandons loses the draws it had taken, as many
as the event says, and no other command draws (log entry 5, the model's form of "its draws are discarded"). -/
def Obligations.ResetSetsEveryField : Prop :=
  ∀ (s : State) (n : Nat) (rest : List Event), s.events = .reset n :: rest →
    ∃ t, step s = .next t ∧ t.events = rest ∧
      (s.busy = true ∧ (∃ rd ra rb, decode s.cmdlast = .ok (.sign rd ra rb)) → t.draws = s.draws.drop n) ∧
      (¬ (s.busy = true ∧ ∃ rd ra rb, decode s.cmdlast = .ok (.sign rd ra rb)) → t.draws = s.draws) ∧
      ∀ u ∈ [t, State.reset],
      (∀ r, u.x r = 0) ∧ u.statusWord = 0x00000000 ∧ u.ctrlWord = 0x00000000 ∧ u.cmdlast = 0x00000000 ∧
      u.busy = false ∧ u.done = false ∧ u.err = false ∧ u.z = false ∧ u.vres = false ∧ u.ovr = false ∧
      u.errcode = 0 ∧ u.irqen = false ∧ u.irq = false

/-- 70_reset_and_hazards.md R203: only a reset ends a command in flight without completing it, which is the engine's turn;
and a reset loses every operand register. -/
def Obligations.OnlyResetStopsACommand : Prop :=
  (∀ s t : State, s.busy = true → step s = .next t → t.busy = false →
    (∃ n rest, s.events = .reset n :: rest) ∨
    ((s.events = [] ∨ ∃ rest, s.events = .engine :: rest) ∧ t.done = true ∧ t.cmdlast = s.cmdlast)) ∧
  ∀ (s : State) (n : Nat) (rest : List Event), s.events = .reset n :: rest →
    ∃ t, step s = .next t ∧ ∀ r, t.x r = 0

/-- Derived from 10_state.md R21 and R29, and 60_exceptions.md R181: the frame of every command. It writes only its
destination, never OVR, CTRL, CMDLAST, the events or the bus response; only SIGN touches the port, only VERIFY VRES,
and SIGN and VERIFY leave Z. It covers ill-formed commands as well, which no word decodes to; that their pair 15 wraps to
register 0 is the model's choice (log entry 12). -/
def Obligations.CommandFrame : Prop :=
  ∀ (i : Instr) (s t : State), exec i s = .next t →
    (∀ r, r ∉ destinations i → t.x r = s.x r) ∧
    t.ovr = s.ovr ∧ t.irqen = s.irqen ∧ t.cmdlast = s.cmdlast ∧ t.events = s.events ∧ t.resp = s.resp ∧
    (i.opcode ≠ .sign → t.draws = s.draws) ∧ (i.opcode ≠ .verify → t.vres = s.vres) ∧
    (i.opcode = .sign ∨ i.opcode = .verify → t.z = s.z)

/-- 60_exceptions.md R183: every command in flight ends at its engine step, with success or one of the four errors, but
for a SIGN whose port supplies no usable nonce. -/
def Obligations.EveryCommandEndsButAStarvedSign : Prop :=
  ∀ s : State, s.busy = true →
    (∃ t, engineTurn s = .next t ∧ t.busy = false ∧ t.done = true ∧
      ((t.err = false ∧ t.errcode = 0) ∨ (t.err = true ∧ t.errcode ∈ [1#4, 2#4, 3#4, 4#4]))) ∨
    ∃ t rd ra rb, engineTurn s = .next t ∧ t.busy = true ∧ decode s.cmdlast = .ok (.sign rd ra rb) ∧
      ∀ j ∈ s.draws, NonceRejected (s.val ra) (s.val rb) j.toNat

/-- 10_state.md R29: Z is written only by a command that completes with success, by its result; SIGN, VERIFY, an error
and an acceptance leave it; reset clears it. -/
def Obligations.ZeroFlagRule : Prop :=
  (∀ s t : State, s.busy = true → s.err = false → engineTurn s = .next t → t.err = true → t.z = s.z) ∧
  (∀ (i : Instr) (s t : State), i.WellFormed → s.busy = true → s.err = false → exec i s = .next t →
    t.err = false → ∀ rd ra rb rm k, (i ∈ [.addm rd ra rb rm, .subm rd ra rb rm, .mulm rd ra rb rm,
      .expm rd ra rb rm, .invm rd ra rm, .divm rd ra rb rm, .ldc rd k] → (t.z = true ↔ t.x rd = 0)) ∧
      (i ∈ [.padd rd ra rb, .pdbl rd ra, .smul rd ra rb, .pubk rd ra] →
        (t.z = true ↔ t.x rd = 0 ∧ t.x (rd + 1) = 0)) ∧
      (i ∈ [.sign rd ra rb, .verify ra rb rm] → t.z = s.z)) ∧
  (∀ (s t : State) (w : BusWord) (rest : List Event), s.busy = false → s.events = .write 0x00C w :: rest →
    step s = .next t → t.z = s.z) ∧
  (∀ (s t : State) (n : Nat) (rest : List Event), s.events = .reset n :: rest → step s = .next t → t.z = false) ∧
  State.reset.z = false

/-- 10_state.md R36: accepting a command clears VRES, and an engine step sets it exactly when the command in flight is a
VERIFY whose test holds. -/
def Obligations.VerifyResultFlagRule : Prop :=
  (∀ (s t : State) (w : BusWord) (rest : List Event), s.busy = false → s.events = .write 0x00C w :: rest →
    step s = .next t → t.vres = false) ∧
  (∀ s t : State, s.busy = true → s.vres = false → engineTurn s = .next t →
    (t.vres = true ↔ ∃ ra rb rm, decode s.cmdlast = .ok (.verify ra rb rm) ∧
      Accepts (s.val ra) (pointAt s rb) (s.val rm) (s.val (rm + 1)))) ∧
  (∀ (s t : State) (n : Nat) (rest : List Event), s.events = .reset n :: rest → step s = .next t → t.vres = false) ∧
  State.reset.vres = false

/-- 10_state.md R37: no command writes OVR; a dropped write sets it, and it stays until the host writes 1 to bit 5 of
STATUS or resets. -/
def Obligations.OverrunFlagRule : Prop :=
  (∀ s t : State, engineTurn s = .next t → t.ovr = s.ovr) ∧
  (∀ s t : State, step s = .next t → s.ovr = false → (t.ovr = true ↔ s.busy = true ∧
    ∃ a v rest, s.events = .write a v :: rest ∧
      (a.toNat = 0x00C ∨ (0x100 ≤ a.toNat ∧ a.toNat ≤ 0x2FF ∧ a.toNat % 4 = 0)))) ∧
  ∀ s t : State, step s = .next t → s.ovr = true → t.ovr = false →
    (∃ v rest, s.events = .write 0x008 v :: rest ∧ v.getLsbD 5 = true) ∨ ∃ n rest, s.events = .reset n :: rest

/-- Derived from 10_state.md R32 and 60_exceptions.md R187, R188: `irq` is bit 1 of what STATUS reads AND bit 0 of what CTRL
reads. So it rises exactly at a completion with IRQEN = 1, or when the host enables it with DONE pending; and it falls
exactly by the host's W1C of DONE, its clearing of IRQEN, the next accepted command, or a reset. -/
def Obligations.InterruptRule : Prop :=
  (∀ s : State, ∃ status ctrl : BusWord, s.readResponse 0x008 = .read status false ∧
    s.readResponse 0x004 = .read ctrl false ∧ s.irq = (status.getLsbD 1 && ctrl.getLsbD 0)) ∧
  ∀ s t : State, step s = .next t →
    (s.irq = false → (t.irq = true ↔ (s.busy = true ∧ t.busy = false ∧ t.done = true ∧ s.irqen = true) ∨
      ∃ v rest, s.events = .write 0x004 v :: rest ∧ v.getLsbD 0 = true ∧ s.done = true)) ∧
    (s.irq = true → (t.irq = false ↔
      (∃ v rest, s.events = .write 0x008 v :: rest ∧ v.getLsbD 1 = true) ∨
      (∃ v rest, s.events = .write 0x004 v :: rest ∧ v.getLsbD 0 = false) ∨
      (∃ w rest, s.events = .write 0x00C w :: rest ∧ s.busy = false) ∨ ∃ n rest, s.events = .reset n :: rest))

/-- Derived from 40_modular.md R101 to R111, the consequences that R116 draws: every modular result lies in [0, m);
operands are reduced first, so they need not be below m; two results are equal exactly when their 256-bit values are; and
so a successful command of the unit leaves a value below its modulus. -/
def Obligations.ModularResultsAreReduced : Prop :=
  (∀ a b e m : Nat, 0 < m →
    ∀ v ∈ [addM a b m, subM a b m, mulM a b m, expM a e m, invM a m, divM a b m], v < m) ∧
  (∀ a b e m : Nat,
    addM (a % m) (b % m) m = addM a b m ∧ subM (a % m) (b % m) m = subM a b m ∧
    mulM (a % m) (b % m) m = mulM a b m ∧ expM (a % m) e m = expM a e m ∧ invM (a % m) m = invM a m ∧
    divM (a % m) (b % m) m = divM a b m) ∧
  (∀ u v m : Nat, m < 2 ^ 256 → u < m → v < m → (BitVec.ofNat 256 u = BitVec.ofNat 256 v ↔ u = v)) ∧
  ∀ (rd ra rb rm : Reg) (s t : State), ∀ i ∈ [Instr.addm rd ra rb rm, .subm rd ra rb rm, .mulm rd ra rb rm,
    .expm rd ra rb rm, .invm rd ra rm, .divm rd ra rb rm], exec i s = .next t → t.err = false → t.val rd < s.val rm
end

