-- ==== Sys2Proof/Config.lean ====
section
/-! DEFINITION. What the platform around the block fixes and the spec leaves open (93_implementation_defined.md U19 to
U21). The constant ROM and ID_VALUE, which 10_state.md R35 counts as configuration too, stand in Machine/Rom.lean. -/

namespace Sys2Proof.Config

/-- `BASE`, OPEN: where the platform maps the window (20_memory.md R51). UNVERIFIED, safe: no rule of the block reads
it, and nothing can prove a value of it (log entry 8). -/
opaque base : Nat

/-- `IRQ_LINE`, OPEN: the interrupt line the platform routes `irq` to (60_exceptions.md R187). UNVERIFIED, safe (log
entry 8). -/
opaque irqLine : Nat

/-- `RST_POLARITY`, OPEN: whether `rst` is active high (70_reset_and_hazards.md R200). UNVERIFIED, safe (log entry 8). -/
opaque resetActiveHigh : Bool

/-- The address, in the host's own address space, of a byte of the window (20_memory.md R51). -/
def hostAddress (a : BusAddr) : Nat := base + a.toNat

end Sys2Proof.Config
end

