-- ==== Sys2Proof/Laws/Arith.lean ====
section
/-! SUPPORT. What the modular functions compute (R101 to R111), that every result is below its modulus and every point
result has reduced coordinates (40_modular.md R116, 41_curve.md R131), and what the signing loop answers. -/

namespace Sys2Proof.Machine

theorem addM_lt (a b : Nat) {m : Nat} (h : 0 < m) : addM a b m < m := Nat.mod_lt _ h

theorem subM_lt (a b : Nat) {m : Nat} (h : 0 < m) : subM a b m < m := addM_lt _ _ h

theorem mulM_lt (a b : Nat) {m : Nat} (h : 0 < m) : mulM a b m < m := Nat.mod_lt _ h

theorem expLoop_lt {m : Nat} (h : 0 < m) (n e result sq : Nat) (hr : result < m) : expLoop m n e result sq < m := by
  induction n generalizing e result sq with
  | zero => exact hr
  | succ n ih =>
    apply ih
    split
    · exact mulM_lt _ _ h
    · exact hr

theorem expM_lt (a e : Nat) {m : Nat} (h : 0 < m) : expM a e m < m := expLoop_lt h _ _ _ _ (Nat.mod_lt _ h)

theorem invM_lt (a : Nat) {m : Nat} (h : 0 < m) : invM a m < m := expM_lt _ _ h

theorem divM_lt (a b : Nat) {m : Nat} (h : 0 < m) : divM a b m < m := mulM_lt _ _ h

/-- The exact sum (40_modular.md R101). -/
theorem addM_eq (a b m : Nat) : addM a b m = (a + b) % m := (Nat.add_mod a b m).symm

/-- The exact product (40_modular.md R105). -/
theorem mulM_eq (a b m : Nat) : mulM a b m = a * b % m := (Nat.mul_mod a b m).symm

/-- The exact difference, an integer reduced into [0, m) (40_modular.md R103). -/
theorem subM_eq (a b : Nat) {m : Nat} (h : 0 < m) : (subM a b m : Int) = ((a : Int) - b) % m := by
  rw [subM, addM_eq]
  push_cast [Nat.cast_sub (Nat.mod_lt b h).le]
  rw [Int.emod_eq_emod_iff_emod_sub_eq_zero]
  apply Int.emod_eq_zero_of_dvd
  refine ⟨1 + (b : Int) / m, ?_⟩
  linarith [Int.emod_add_mul_ediv (b : Int) m]

/-- The loop of 40_modular.md R107 multiplies `result` by the square's power. -/
theorem expLoop_eq (m n e result sq : Nat) (h : e < 2 ^ n) :
    expLoop m n e result sq % m = result * sq ^ e % m := by
  induction n generalizing e result sq with
  | zero => simp_all [expLoop]
  | succ n ih =>
    rw [expLoop, ih _ _ _ (by rw [pow_succ] at h; omega)]
    have he : e = 2 * (e / 2) + e % 2 := by omega
    split
    · next ho =>
      conv_rhs => rw [he, ho]
      rw [mulM_eq, mulM_eq, Nat.mul_mod, Nat.pow_mod, Nat.mod_mod, Nat.mod_mod, ← Nat.pow_mod, ← Nat.mul_mod]
      congr 1; ring
    · next ho =>
      have : e % 2 = 0 := by omega
      conv_rhs => rw [he, this]
      rw [mulM_eq, Nat.mul_mod, Nat.pow_mod, Nat.mod_mod, ← Nat.pow_mod, ← Nat.mul_mod]
      congr 1; ring

/-- The exact power, for every 256-bit exponent (40_modular.md R107). -/
theorem expM_eq (a : Nat) {e m : Nat} (hm : 0 < m) (he : e < 2 ^ 256) : expM a e m = a ^ e % m := by
  rw [← Nat.mod_eq_of_lt (expM_lt a e hm), expM, expLoop_eq _ _ _ _ _ he, Nat.mul_mod, Nat.mod_mod, ← Nat.pow_mod,
    ← Nat.mul_mod, one_mul]

/-- Fermat's power (40_modular.md R109). -/
theorem invM_eq (a : Nat) {m : Nat} (hm : 0 < m) (hw : m ≤ 2 ^ 256) : invM a m = a ^ (m - 2) % m :=
  expM_eq a hm (by omega)

/-- The product with Fermat's power (40_modular.md R111). -/
theorem divM_eq (a b : Nat) {m : Nat} (hm : 0 < m) (hw : m ≤ 2 ^ 256) : divM a b m = a * b ^ (m - 2) % m := by
  rw [divM, mulM_eq, expM_eq _ hm (by omega), Nat.mul_mod_mod]

/-- Fermat's power is the inverse where m is prime (40_modular.md R109). -/
theorem mul_pow_sub_two {p a : Nat} (hp : p.Prime) (h : 2 < p) (ha : a % p ≠ 0) : a * a ^ (p - 2) % p = 1 := by
  have := Fact.mk hp
  have hne : (a : ZMod p) ≠ 0 := fun e => ha (Nat.mod_eq_zero_of_dvd ((ZMod.natCast_eq_zero_iff _ _).mp e))
  have e : ((a ^ (p - 1) : ℕ) : ZMod p) = (1 : ℕ) := by
    push_cast
    exact ZMod.pow_card_sub_one_eq_one hne
  rw [ZMod.natCast_eq_natCast_iff', Nat.mod_eq_of_lt (by omega : 1 < p)] at e
  rw [← pow_succ', show p - 2 + 1 = p - 1 by omega, e]

theorem fieldPrime_pos : 0 < fieldPrime := by decide

theorem groupOrder_pos : 0 < groupOrder := by decide

/-- Both coordinates lie in [0, P) (41_curve.md R131). -/
structure Point.Reduced (p : Point) : Prop where
  x_lt : p.x < fieldPrime
  y_lt : p.y < fieldPrime

theorem identity_reduced : identity.Reduced := ⟨fieldPrime_pos, fieldPrime_pos⟩

theorem generator_reduced : generator.Reduced := ⟨by decide, by decide⟩

theorem reducePoint_reduced (x y : Nat) : (reducePoint x y).Reduced :=
  ⟨Nat.mod_lt _ fieldPrime_pos, Nat.mod_lt _ fieldPrime_pos⟩

/-- Reducing reduced coordinates changes nothing. -/
theorem reducePoint_of_reduced {p : Point} (h : p.Reduced) : reducePoint p.x p.y = p := by
  simp [reducePoint, Nat.mod_eq_of_lt h.x_lt, Nat.mod_eq_of_lt h.y_lt]

theorem chord_reduced (l x1 y1 x2 : Nat) : (chord l x1 y1 x2).Reduced :=
  ⟨subM_lt _ _ fieldPrime_pos, subM_lt _ _ fieldPrime_pos⟩

theorem pdbl_reduced (p : Point) : (pdbl p).Reduced := by
  unfold pdbl
  repeat' split
  all_goals first | exact identity_reduced | exact chord_reduced _ _ _ _

theorem padd_reduced {p q : Point} (hp : p.Reduced) (hq : q.Reduced) : (padd p q).Reduced := by
  unfold padd
  repeat' split
  all_goals first
    | exact hp | exact hq | exact pdbl_reduced _ | exact identity_reduced | exact chord_reduced _ _ _ _

theorem smulLoop_reduced (n k : Nat) {acc add : Point} (ha : acc.Reduced) (hd : add.Reduced) :
    (smulLoop n k acc add).Reduced := by
  induction n generalizing k acc add with
  | zero => exact ha
  | succ n ih =>
    apply ih _ _ (pdbl_reduced _)
    split
    · exact padd_reduced ha hd
    · exact ha

theorem smul_reduced (k : Nat) (p : Point) : (smul k p).Reduced :=
  smulLoop_reduced _ _ identity_reduced (reducePoint_reduced _ _)

/-- Reduced coordinates fit a register. -/
theorem Point.Reduced.lt_word {p : Point} (h : p.Reduced) : p.x < 2 ^ 256 ∧ p.y < 2 ^ 256 :=
  ⟨h.x_lt.trans (by decide), h.y_lt.trans (by decide)⟩

/-- What a completed pass of the signing loop says (42_ecdsa.md R161): the guards passed, and r and s in range. -/
theorem signWith_some {z d k r sv : Nat} (h : signWith z d k = some (r, sv)) :
    (k ≠ 0 ∧ k < groupOrder) ∧ r = (smul k generator).x % groupOrder ∧ r ≠ 0 ∧
      sv = divM (addM (mulM r d groupOrder) z groupOrder) k groupOrder ∧ sv ≠ 0 := by
  unfold signWith at h
  split at h
  · cases h
  · next hk =>
    dsimp only at h
    split at h
    · cases h
    · next hr =>
      split at h
      · cases h
      · next hs =>
        cases h
        exact ⟨by omega, rfl, hr, rfl, hs⟩

/-- The signing loop takes exactly the rejected draws and the first usable one (42_ecdsa.md R163). -/
theorem signLoop_some {z d : Nat} {ds rest : List Word} {rs : Nat × Nat} (h : signLoop z d ds = some (rs, rest)) :
    ∃ rejected k, ds = rejected ++ k :: rest ∧ (∀ j ∈ rejected, signWith z d j.toNat = none) ∧
      signWith z d k.toNat = some rs := by
  induction ds with
  | nil => cases h
  | cons k ks ih =>
    unfold signLoop at h
    split at h
    · next hk => cases h; exact ⟨[], k, rfl, by simp, hk⟩
    · next hk =>
      obtain ⟨rej, k', rfl, hr, hk'⟩ := ih h
      refine ⟨k :: rej, k', rfl, ?_, hk'⟩
      intro j hj
      rcases List.mem_cons.mp hj with rfl | hj
      · exact hk
      · exact hr j hj

/-- And from such draws the loop gives that signature (42_ecdsa.md R161, R163). -/
theorem signLoop_append {z d : Nat} {rejected rest : List Word} {k : Word} {rs : Nat × Nat}
    (h : ∀ j ∈ rejected, signWith z d j.toNat = none) (hk : signWith z d k.toNat = some rs) :
    signLoop z d (rejected ++ k :: rest) = some (rs, rest) := by
  induction rejected with
  | nil => simp [signLoop, hk]
  | cons j js ih =>
    simp only [List.cons_append, signLoop, h j (by simp)]
    exact ih fun i hi => h i (by simp [hi])

/-- Every draw the port supplies is rejected (42_ecdsa.md R163). -/
theorem signLoop_none {z d : Nat} {ds : List Word} (h : signLoop z d ds = none) :
    ∀ j ∈ ds, signWith z d j.toNat = none := by
  induction ds with
  | nil => simp
  | cons k ks ih =>
    unfold signLoop at h
    split at h
    · cases h
    · next hk =>
      intro j hj
      rcases List.mem_cons.mp hj with rfl | hj
      · exact hk
      · exact ih h j hj

end Sys2Proof.Machine
end

