-- ==== Sys2Proof/Laws/State.lean ====
section
/-! SUPPORT. One lemma per field per update of State, true by rfl: no later proof unfolds a record update. -/

namespace Sys2Proof.Machine

variable (s : State)

@[simp] theorem setX_regs (i : Reg) (v : Word) : (s.setX i v).regs = s.regs.set i.val v := rfl
@[simp] theorem setX_busy (i : Reg) (v : Word) : (s.setX i v).busy = s.busy := rfl
@[simp] theorem setX_done (i : Reg) (v : Word) : (s.setX i v).done = s.done := rfl
@[simp] theorem setX_err (i : Reg) (v : Word) : (s.setX i v).err = s.err := rfl
@[simp] theorem setX_z (i : Reg) (v : Word) : (s.setX i v).z = s.z := rfl
@[simp] theorem setX_vres (i : Reg) (v : Word) : (s.setX i v).vres = s.vres := rfl
@[simp] theorem setX_ovr (i : Reg) (v : Word) : (s.setX i v).ovr = s.ovr := rfl
@[simp] theorem setX_errcode (i : Reg) (v : Word) : (s.setX i v).errcode = s.errcode := rfl
@[simp] theorem setX_irqen (i : Reg) (v : Word) : (s.setX i v).irqen = s.irqen := rfl
@[simp] theorem setX_cmdlast (i : Reg) (v : Word) : (s.setX i v).cmdlast = s.cmdlast := rfl
@[simp] theorem setX_events (i : Reg) (v : Word) : (s.setX i v).events = s.events := rfl
@[simp] theorem setX_draws (i : Reg) (v : Word) : (s.setX i v).draws = s.draws := rfl
@[simp] theorem setX_resp (i : Reg) (v : Word) : (s.setX i v).resp = s.resp := rfl

@[simp] theorem setPair_regs (i : Reg) (a b : Nat) : (s.setPair i a b).regs = (s.regs.set i.val (BitVec.ofNat 256 a)).set (pairY i).val (BitVec.ofNat 256 b) := rfl
@[simp] theorem setPair_busy (i : Reg) (a b : Nat) : (s.setPair i a b).busy = s.busy := rfl
@[simp] theorem setPair_done (i : Reg) (a b : Nat) : (s.setPair i a b).done = s.done := rfl
@[simp] theorem setPair_err (i : Reg) (a b : Nat) : (s.setPair i a b).err = s.err := rfl
@[simp] theorem setPair_z (i : Reg) (a b : Nat) : (s.setPair i a b).z = s.z := rfl
@[simp] theorem setPair_vres (i : Reg) (a b : Nat) : (s.setPair i a b).vres = s.vres := rfl
@[simp] theorem setPair_ovr (i : Reg) (a b : Nat) : (s.setPair i a b).ovr = s.ovr := rfl
@[simp] theorem setPair_errcode (i : Reg) (a b : Nat) : (s.setPair i a b).errcode = s.errcode := rfl
@[simp] theorem setPair_irqen (i : Reg) (a b : Nat) : (s.setPair i a b).irqen = s.irqen := rfl
@[simp] theorem setPair_cmdlast (i : Reg) (a b : Nat) : (s.setPair i a b).cmdlast = s.cmdlast := rfl
@[simp] theorem setPair_events (i : Reg) (a b : Nat) : (s.setPair i a b).events = s.events := rfl
@[simp] theorem setPair_draws (i : Reg) (a b : Nat) : (s.setPair i a b).draws = s.draws := rfl
@[simp] theorem setPair_resp (i : Reg) (a b : Nat) : (s.setPair i a b).resp = s.resp := rfl

@[simp] theorem setEvents_regs (l : List Event) : (s.setEvents l).regs = s.regs := rfl
@[simp] theorem setEvents_busy (l : List Event) : (s.setEvents l).busy = s.busy := rfl
@[simp] theorem setEvents_done (l : List Event) : (s.setEvents l).done = s.done := rfl
@[simp] theorem setEvents_err (l : List Event) : (s.setEvents l).err = s.err := rfl
@[simp] theorem setEvents_z (l : List Event) : (s.setEvents l).z = s.z := rfl
@[simp] theorem setEvents_vres (l : List Event) : (s.setEvents l).vres = s.vres := rfl
@[simp] theorem setEvents_ovr (l : List Event) : (s.setEvents l).ovr = s.ovr := rfl
@[simp] theorem setEvents_errcode (l : List Event) : (s.setEvents l).errcode = s.errcode := rfl
@[simp] theorem setEvents_irqen (l : List Event) : (s.setEvents l).irqen = s.irqen := rfl
@[simp] theorem setEvents_cmdlast (l : List Event) : (s.setEvents l).cmdlast = s.cmdlast := rfl
@[simp] theorem setEvents_events (l : List Event) : (s.setEvents l).events = l := rfl
@[simp] theorem setEvents_draws (l : List Event) : (s.setEvents l).draws = s.draws := rfl
@[simp] theorem setEvents_resp (l : List Event) : (s.setEvents l).resp = s.resp := rfl
@[simp] theorem setEvents_x (l : List Event) (r : Reg) : (s.setEvents l).x r = s.x r := rfl

@[simp] theorem respond_regs (a : BusResponse) : (s.respond a).regs = s.regs := rfl
@[simp] theorem respond_busy (a : BusResponse) : (s.respond a).busy = s.busy := rfl
@[simp] theorem respond_done (a : BusResponse) : (s.respond a).done = s.done := rfl
@[simp] theorem respond_err (a : BusResponse) : (s.respond a).err = s.err := rfl
@[simp] theorem respond_z (a : BusResponse) : (s.respond a).z = s.z := rfl
@[simp] theorem respond_vres (a : BusResponse) : (s.respond a).vres = s.vres := rfl
@[simp] theorem respond_ovr (a : BusResponse) : (s.respond a).ovr = s.ovr := rfl
@[simp] theorem respond_errcode (a : BusResponse) : (s.respond a).errcode = s.errcode := rfl
@[simp] theorem respond_irqen (a : BusResponse) : (s.respond a).irqen = s.irqen := rfl
@[simp] theorem respond_cmdlast (a : BusResponse) : (s.respond a).cmdlast = s.cmdlast := rfl
@[simp] theorem respond_events (a : BusResponse) : (s.respond a).events = s.events := rfl
@[simp] theorem respond_draws (a : BusResponse) : (s.respond a).draws = s.draws := rfl
@[simp] theorem respond_resp (a : BusResponse) : (s.respond a).resp = some a := rfl
@[simp] theorem respond_x (a : BusResponse) (r : Reg) : (s.respond a).x r = s.x r := rfl

@[simp] theorem accept_regs (w : BusWord) : (s.accept w).regs = s.regs := rfl
@[simp] theorem accept_busy (w : BusWord) : (s.accept w).busy = true := rfl
@[simp] theorem accept_done (w : BusWord) : (s.accept w).done = false := rfl
@[simp] theorem accept_err (w : BusWord) : (s.accept w).err = false := rfl
@[simp] theorem accept_z (w : BusWord) : (s.accept w).z = s.z := rfl
@[simp] theorem accept_vres (w : BusWord) : (s.accept w).vres = false := rfl
@[simp] theorem accept_ovr (w : BusWord) : (s.accept w).ovr = s.ovr := rfl
@[simp] theorem accept_errcode (w : BusWord) : (s.accept w).errcode = 0 := rfl
@[simp] theorem accept_irqen (w : BusWord) : (s.accept w).irqen = s.irqen := rfl
@[simp] theorem accept_cmdlast (w : BusWord) : (s.accept w).cmdlast = w := rfl
@[simp] theorem accept_events (w : BusWord) : (s.accept w).events = s.events := rfl
@[simp] theorem accept_draws (w : BusWord) : (s.accept w).draws = s.draws := rfl
@[simp] theorem accept_resp (w : BusWord) : (s.accept w).resp = s.resp := rfl
@[simp] theorem accept_x (w : BusWord) (r : Reg) : (s.accept w).x r = s.x r := rfl

@[simp] theorem complete_regs : (s.complete).regs = s.regs := rfl
@[simp] theorem complete_busy : (s.complete).busy = false := rfl
@[simp] theorem complete_done : (s.complete).done = true := rfl
@[simp] theorem complete_err : (s.complete).err = false := rfl
@[simp] theorem complete_z : (s.complete).z = s.z := rfl
@[simp] theorem complete_vres : (s.complete).vres = s.vres := rfl
@[simp] theorem complete_ovr : (s.complete).ovr = s.ovr := rfl
@[simp] theorem complete_errcode : (s.complete).errcode = 0 := rfl
@[simp] theorem complete_irqen : (s.complete).irqen = s.irqen := rfl
@[simp] theorem complete_cmdlast : (s.complete).cmdlast = s.cmdlast := rfl
@[simp] theorem complete_events : (s.complete).events = s.events := rfl
@[simp] theorem complete_draws : (s.complete).draws = s.draws := rfl
@[simp] theorem complete_resp : (s.complete).resp = s.resp := rfl
@[simp] theorem complete_x (r : Reg) : (s.complete).x r = s.x r := rfl

@[simp] theorem raise_regs (e : ErrorCode) : (s.raise e).regs = s.regs := rfl
@[simp] theorem raise_busy (e : ErrorCode) : (s.raise e).busy = false := rfl
@[simp] theorem raise_done (e : ErrorCode) : (s.raise e).done = true := rfl
@[simp] theorem raise_err (e : ErrorCode) : (s.raise e).err = true := rfl
@[simp] theorem raise_z (e : ErrorCode) : (s.raise e).z = s.z := rfl
@[simp] theorem raise_vres (e : ErrorCode) : (s.raise e).vres = s.vres := rfl
@[simp] theorem raise_ovr (e : ErrorCode) : (s.raise e).ovr = s.ovr := rfl
@[simp] theorem raise_errcode (e : ErrorCode) : (s.raise e).errcode = e.code := rfl
@[simp] theorem raise_irqen (e : ErrorCode) : (s.raise e).irqen = s.irqen := rfl
@[simp] theorem raise_cmdlast (e : ErrorCode) : (s.raise e).cmdlast = s.cmdlast := rfl
@[simp] theorem raise_events (e : ErrorCode) : (s.raise e).events = s.events := rfl
@[simp] theorem raise_draws (e : ErrorCode) : (s.raise e).draws = s.draws := rfl
@[simp] theorem raise_resp (e : ErrorCode) : (s.raise e).resp = s.resp := rfl
@[simp] theorem raise_x (e : ErrorCode) (r : Reg) : (s.raise e).x r = s.x r := rfl

@[simp] theorem finishScalar_regs (rd : Reg) (v : Nat) : (s.finishScalar rd v).regs = s.regs.set rd.val (BitVec.ofNat 256 v) := rfl
@[simp] theorem finishScalar_busy (rd : Reg) (v : Nat) : (s.finishScalar rd v).busy = false := rfl
@[simp] theorem finishScalar_done (rd : Reg) (v : Nat) : (s.finishScalar rd v).done = true := rfl
@[simp] theorem finishScalar_err (rd : Reg) (v : Nat) : (s.finishScalar rd v).err = false := rfl
@[simp] theorem finishScalar_z (rd : Reg) (v : Nat) : (s.finishScalar rd v).z = zeroFlag v := rfl
@[simp] theorem finishScalar_vres (rd : Reg) (v : Nat) : (s.finishScalar rd v).vres = s.vres := rfl
@[simp] theorem finishScalar_ovr (rd : Reg) (v : Nat) : (s.finishScalar rd v).ovr = s.ovr := rfl
@[simp] theorem finishScalar_errcode (rd : Reg) (v : Nat) : (s.finishScalar rd v).errcode = 0 := rfl
@[simp] theorem finishScalar_irqen (rd : Reg) (v : Nat) : (s.finishScalar rd v).irqen = s.irqen := rfl
@[simp] theorem finishScalar_cmdlast (rd : Reg) (v : Nat) : (s.finishScalar rd v).cmdlast = s.cmdlast := rfl
@[simp] theorem finishScalar_events (rd : Reg) (v : Nat) : (s.finishScalar rd v).events = s.events := rfl
@[simp] theorem finishScalar_draws (rd : Reg) (v : Nat) : (s.finishScalar rd v).draws = s.draws := rfl
@[simp] theorem finishScalar_resp (rd : Reg) (v : Nat) : (s.finishScalar rd v).resp = s.resp := rfl

@[simp] theorem finishPoint_regs (rd : Reg) (p : Point) : (s.finishPoint rd p).regs = (s.setPair rd p.x p.y).regs := rfl
@[simp] theorem finishPoint_busy (rd : Reg) (p : Point) : (s.finishPoint rd p).busy = false := rfl
@[simp] theorem finishPoint_done (rd : Reg) (p : Point) : (s.finishPoint rd p).done = true := rfl
@[simp] theorem finishPoint_err (rd : Reg) (p : Point) : (s.finishPoint rd p).err = false := rfl
@[simp] theorem finishPoint_z (rd : Reg) (p : Point) : (s.finishPoint rd p).z = identityFlag p := rfl
@[simp] theorem finishPoint_vres (rd : Reg) (p : Point) : (s.finishPoint rd p).vres = s.vres := rfl
@[simp] theorem finishPoint_ovr (rd : Reg) (p : Point) : (s.finishPoint rd p).ovr = s.ovr := rfl
@[simp] theorem finishPoint_errcode (rd : Reg) (p : Point) : (s.finishPoint rd p).errcode = 0 := rfl
@[simp] theorem finishPoint_irqen (rd : Reg) (p : Point) : (s.finishPoint rd p).irqen = s.irqen := rfl
@[simp] theorem finishPoint_cmdlast (rd : Reg) (p : Point) : (s.finishPoint rd p).cmdlast = s.cmdlast := rfl
@[simp] theorem finishPoint_events (rd : Reg) (p : Point) : (s.finishPoint rd p).events = s.events := rfl
@[simp] theorem finishPoint_draws (rd : Reg) (p : Point) : (s.finishPoint rd p).draws = s.draws := rfl
@[simp] theorem finishPoint_resp (rd : Reg) (p : Point) : (s.finishPoint rd p).resp = s.resp := rfl

@[simp] theorem finishSignature_regs (rd : Reg) (r v : Nat) (l : List Word) : (s.finishSignature rd r v l).regs = (s.setPair rd r v).regs := rfl
@[simp] theorem finishSignature_busy (rd : Reg) (r v : Nat) (l : List Word) : (s.finishSignature rd r v l).busy = false := rfl
@[simp] theorem finishSignature_done (rd : Reg) (r v : Nat) (l : List Word) : (s.finishSignature rd r v l).done = true := rfl
@[simp] theorem finishSignature_err (rd : Reg) (r v : Nat) (l : List Word) : (s.finishSignature rd r v l).err = false := rfl
@[simp] theorem finishSignature_z (rd : Reg) (r v : Nat) (l : List Word) : (s.finishSignature rd r v l).z = s.z := rfl
@[simp] theorem finishSignature_vres (rd : Reg) (r v : Nat) (l : List Word) : (s.finishSignature rd r v l).vres = s.vres := rfl
@[simp] theorem finishSignature_ovr (rd : Reg) (r v : Nat) (l : List Word) : (s.finishSignature rd r v l).ovr = s.ovr := rfl
@[simp] theorem finishSignature_errcode (rd : Reg) (r v : Nat) (l : List Word) : (s.finishSignature rd r v l).errcode = 0 := rfl
@[simp] theorem finishSignature_irqen (rd : Reg) (r v : Nat) (l : List Word) : (s.finishSignature rd r v l).irqen = s.irqen := rfl
@[simp] theorem finishSignature_cmdlast (rd : Reg) (r v : Nat) (l : List Word) : (s.finishSignature rd r v l).cmdlast = s.cmdlast := rfl
@[simp] theorem finishSignature_events (rd : Reg) (r v : Nat) (l : List Word) : (s.finishSignature rd r v l).events = s.events := rfl
@[simp] theorem finishSignature_draws (rd : Reg) (r v : Nat) (l : List Word) : (s.finishSignature rd r v l).draws = l := rfl
@[simp] theorem finishSignature_resp (rd : Reg) (r v : Nat) (l : List Word) : (s.finishSignature rd r v l).resp = s.resp := rfl

@[simp] theorem finishVerdict_regs (v : Bool) : (s.finishVerdict v).regs = s.regs := rfl
@[simp] theorem finishVerdict_busy (v : Bool) : (s.finishVerdict v).busy = false := rfl
@[simp] theorem finishVerdict_done (v : Bool) : (s.finishVerdict v).done = true := rfl
@[simp] theorem finishVerdict_err (v : Bool) : (s.finishVerdict v).err = false := rfl
@[simp] theorem finishVerdict_z (v : Bool) : (s.finishVerdict v).z = s.z := rfl
@[simp] theorem finishVerdict_vres (v : Bool) : (s.finishVerdict v).vres = v := rfl
@[simp] theorem finishVerdict_ovr (v : Bool) : (s.finishVerdict v).ovr = s.ovr := rfl
@[simp] theorem finishVerdict_errcode (v : Bool) : (s.finishVerdict v).errcode = 0 := rfl
@[simp] theorem finishVerdict_irqen (v : Bool) : (s.finishVerdict v).irqen = s.irqen := rfl
@[simp] theorem finishVerdict_cmdlast (v : Bool) : (s.finishVerdict v).cmdlast = s.cmdlast := rfl
@[simp] theorem finishVerdict_events (v : Bool) : (s.finishVerdict v).events = s.events := rfl
@[simp] theorem finishVerdict_draws (v : Bool) : (s.finishVerdict v).draws = s.draws := rfl
@[simp] theorem finishVerdict_resp (v : Bool) : (s.finishVerdict v).resp = s.resp := rfl
@[simp] theorem finishVerdict_x (v : Bool) (r : Reg) : (s.finishVerdict v).x r = s.x r := rfl

@[simp] theorem busRead_regs (a : BusAddr) : (s.busRead a).regs = s.regs := rfl
@[simp] theorem busRead_busy (a : BusAddr) : (s.busRead a).busy = s.busy := rfl
@[simp] theorem busRead_done (a : BusAddr) : (s.busRead a).done = s.done := rfl
@[simp] theorem busRead_err (a : BusAddr) : (s.busRead a).err = s.err := rfl
@[simp] theorem busRead_z (a : BusAddr) : (s.busRead a).z = s.z := rfl
@[simp] theorem busRead_vres (a : BusAddr) : (s.busRead a).vres = s.vres := rfl
@[simp] theorem busRead_ovr (a : BusAddr) : (s.busRead a).ovr = s.ovr := rfl
@[simp] theorem busRead_errcode (a : BusAddr) : (s.busRead a).errcode = s.errcode := rfl
@[simp] theorem busRead_irqen (a : BusAddr) : (s.busRead a).irqen = s.irqen := rfl
@[simp] theorem busRead_cmdlast (a : BusAddr) : (s.busRead a).cmdlast = s.cmdlast := rfl
@[simp] theorem busRead_events (a : BusAddr) : (s.busRead a).events = s.events := rfl
@[simp] theorem busRead_draws (a : BusAddr) : (s.busRead a).draws = s.draws := rfl
@[simp] theorem busRead_resp (a : BusAddr) : (s.busRead a).resp = some (s.readResponse a) := rfl
@[simp] theorem busRead_x (a : BusAddr) (r : Reg) : (s.busRead a).x r = s.x r := rfl

@[simp] theorem dropWrite_regs : (s.dropWrite).regs = s.regs := rfl
@[simp] theorem dropWrite_busy : (s.dropWrite).busy = s.busy := rfl
@[simp] theorem dropWrite_done : (s.dropWrite).done = s.done := rfl
@[simp] theorem dropWrite_err : (s.dropWrite).err = s.err := rfl
@[simp] theorem dropWrite_z : (s.dropWrite).z = s.z := rfl
@[simp] theorem dropWrite_vres : (s.dropWrite).vres = s.vres := rfl
@[simp] theorem dropWrite_ovr : (s.dropWrite).ovr = true := rfl
@[simp] theorem dropWrite_errcode : (s.dropWrite).errcode = s.errcode := rfl
@[simp] theorem dropWrite_irqen : (s.dropWrite).irqen = s.irqen := rfl
@[simp] theorem dropWrite_cmdlast : (s.dropWrite).cmdlast = s.cmdlast := rfl
@[simp] theorem dropWrite_events : (s.dropWrite).events = s.events := rfl
@[simp] theorem dropWrite_draws : (s.dropWrite).draws = s.draws := rfl
@[simp] theorem dropWrite_resp : (s.dropWrite).resp = s.resp := rfl
@[simp] theorem dropWrite_x (r : Reg) : (s.dropWrite).x r = s.x r := rfl

@[simp] theorem writeCtrl_regs (v : BusWord) : (s.writeCtrl v).regs = s.regs := rfl
@[simp] theorem writeCtrl_busy (v : BusWord) : (s.writeCtrl v).busy = s.busy := rfl
@[simp] theorem writeCtrl_done (v : BusWord) : (s.writeCtrl v).done = s.done := rfl
@[simp] theorem writeCtrl_err (v : BusWord) : (s.writeCtrl v).err = s.err := rfl
@[simp] theorem writeCtrl_z (v : BusWord) : (s.writeCtrl v).z = s.z := rfl
@[simp] theorem writeCtrl_vres (v : BusWord) : (s.writeCtrl v).vres = s.vres := rfl
@[simp] theorem writeCtrl_ovr (v : BusWord) : (s.writeCtrl v).ovr = s.ovr := rfl
@[simp] theorem writeCtrl_errcode (v : BusWord) : (s.writeCtrl v).errcode = s.errcode := rfl
@[simp] theorem writeCtrl_irqen (v : BusWord) : (s.writeCtrl v).irqen = v.getLsbD 0 := rfl
@[simp] theorem writeCtrl_cmdlast (v : BusWord) : (s.writeCtrl v).cmdlast = s.cmdlast := rfl
@[simp] theorem writeCtrl_events (v : BusWord) : (s.writeCtrl v).events = s.events := rfl
@[simp] theorem writeCtrl_draws (v : BusWord) : (s.writeCtrl v).draws = s.draws := rfl
@[simp] theorem writeCtrl_resp (v : BusWord) : (s.writeCtrl v).resp = s.resp := rfl
@[simp] theorem writeCtrl_x (v : BusWord) (r : Reg) : (s.writeCtrl v).x r = s.x r := rfl

@[simp] theorem writeStatus_regs (v : BusWord) : (s.writeStatus v).regs = s.regs := rfl
@[simp] theorem writeStatus_busy (v : BusWord) : (s.writeStatus v).busy = s.busy := rfl
@[simp] theorem writeStatus_done (v : BusWord) : (s.writeStatus v).done = (s.done && !v.getLsbD 1) := rfl
@[simp] theorem writeStatus_err (v : BusWord) : (s.writeStatus v).err = s.err := rfl
@[simp] theorem writeStatus_z (v : BusWord) : (s.writeStatus v).z = s.z := rfl
@[simp] theorem writeStatus_vres (v : BusWord) : (s.writeStatus v).vres = s.vres := rfl
@[simp] theorem writeStatus_ovr (v : BusWord) : (s.writeStatus v).ovr = (s.ovr && !v.getLsbD 5) := rfl
@[simp] theorem writeStatus_errcode (v : BusWord) : (s.writeStatus v).errcode = s.errcode := rfl
@[simp] theorem writeStatus_irqen (v : BusWord) : (s.writeStatus v).irqen = s.irqen := rfl
@[simp] theorem writeStatus_cmdlast (v : BusWord) : (s.writeStatus v).cmdlast = s.cmdlast := rfl
@[simp] theorem writeStatus_events (v : BusWord) : (s.writeStatus v).events = s.events := rfl
@[simp] theorem writeStatus_draws (v : BusWord) : (s.writeStatus v).draws = s.draws := rfl
@[simp] theorem writeStatus_resp (v : BusWord) : (s.writeStatus v).resp = s.resp := rfl
@[simp] theorem writeStatus_x (v : BusWord) (r : Reg) : (s.writeStatus v).x r = s.x r := rfl

@[simp] theorem issue_regs (w : BusWord) : (s.issue w).regs = s.regs := rfl
@[simp] theorem issue_busy (w : BusWord) : (s.issue w).busy = true := rfl
@[simp] theorem issue_done (w : BusWord) : (s.issue w).done = false := rfl
@[simp] theorem issue_err (w : BusWord) : (s.issue w).err = false := rfl
@[simp] theorem issue_z (w : BusWord) : (s.issue w).z = s.z := rfl
@[simp] theorem issue_vres (w : BusWord) : (s.issue w).vres = false := rfl
@[simp] theorem issue_ovr (w : BusWord) : (s.issue w).ovr = s.ovr := rfl
@[simp] theorem issue_errcode (w : BusWord) : (s.issue w).errcode = 0 := rfl
@[simp] theorem issue_irqen (w : BusWord) : (s.issue w).irqen = s.irqen := rfl
@[simp] theorem issue_cmdlast (w : BusWord) : (s.issue w).cmdlast = w := rfl
@[simp] theorem issue_events (w : BusWord) : (s.issue w).events = .engine :: s.events := rfl
@[simp] theorem issue_draws (w : BusWord) : (s.issue w).draws = s.draws := rfl
@[simp] theorem issue_resp (w : BusWord) : (s.issue w).resp = s.resp := rfl
@[simp] theorem issue_x (w : BusWord) (r : Reg) : (s.issue w).x r = s.x r := rfl

@[simp] theorem resetEvent_regs (n : Nat) : (s.resetEvent n).regs = Vector.replicate 16 0 := rfl
@[simp] theorem resetEvent_busy (n : Nat) : (s.resetEvent n).busy = false := rfl
@[simp] theorem resetEvent_done (n : Nat) : (s.resetEvent n).done = false := rfl
@[simp] theorem resetEvent_err (n : Nat) : (s.resetEvent n).err = false := rfl
@[simp] theorem resetEvent_z (n : Nat) : (s.resetEvent n).z = false := rfl
@[simp] theorem resetEvent_vres (n : Nat) : (s.resetEvent n).vres = false := rfl
@[simp] theorem resetEvent_ovr (n : Nat) : (s.resetEvent n).ovr = false := rfl
@[simp] theorem resetEvent_errcode (n : Nat) : (s.resetEvent n).errcode = 0 := rfl
@[simp] theorem resetEvent_irqen (n : Nat) : (s.resetEvent n).irqen = false := rfl
@[simp] theorem resetEvent_cmdlast (n : Nat) : (s.resetEvent n).cmdlast = 0 := rfl
@[simp] theorem resetEvent_events (n : Nat) : (s.resetEvent n).events = s.events := rfl
@[simp] theorem resetEvent_draws (n : Nat) : (s.resetEvent n).draws = if s.signInFlight then s.draws.drop n else s.draws := rfl
@[simp] theorem resetEvent_resp (n : Nat) : (s.resetEvent n).resp = none := rfl

end Sys2Proof.Machine
end

