-- ==== Sys2Proof/Laws/Operands.lean ====
section
/-! SUPPORT. Reading a register after a write: the same register gives the value written, another its old value
(00_scope.md R10), and the bits of a replaced window word (20_memory.md R55). -/

namespace Sys2Proof.Machine

/-- A pair is two different registers. -/
@[simp] theorem pairY_ne (i : Reg) : pairY i ≠ i := by
  revert i; decide

@[simp] theorem ne_pairY (i : Reg) : i ≠ pairY i := (pairY_ne i).symm

/-- The odd register of an even pair is its field value + 1 (30_encoding.md R73). -/
theorem pairY_val {i : Reg} (h : Reg.isPair i = true) : (pairY i).val = i.val + 1 := by
  revert i; decide

theorem x_setX (s : State) (i j : Reg) (v : Word) : (s.setX i v).x j = if j = i then v else s.x j := by
  simp only [State.x, State.setX, Vector.getElem_set, Fin.ext_iff]
  split <;> split <;> simp_all

@[simp] theorem x_setX_self (s : State) (i : Reg) (v : Word) : (s.setX i v).x i = v := by simp [x_setX]

theorem x_setX_of_ne (s : State) {i j : Reg} (v : Word) (h : j ≠ i) : (s.setX i v).x j = s.x j := by
  simp [x_setX, h]

theorem x_setPair (s : State) (i j : Reg) (a b : Nat) : (s.setPair i a b).x j =
    if j = pairY i then BitVec.ofNat 256 b else if j = i then BitVec.ofNat 256 a else s.x j := by
  simp [State.setPair, x_setX]

@[simp] theorem x_finishScalar (s : State) (rd j : Reg) (v : Nat) :
    (s.finishScalar rd v).x j = if j = rd then BitVec.ofNat 256 v else s.x j := x_setX s rd j _

@[simp] theorem x_finishPoint (s : State) (rd j : Reg) (p : Point) : (s.finishPoint rd p).x j =
    if j = pairY rd then BitVec.ofNat 256 p.y else if j = rd then BitVec.ofNat 256 p.x else s.x j :=
  x_setPair s rd j p.x p.y

@[simp] theorem x_finishSignature (s : State) (rd j : Reg) (r v : Nat) (l : List Word) :
    (s.finishSignature rd r v l).x j =
      if j = pairY rd then BitVec.ofNat 256 v else if j = rd then BitVec.ofNat 256 r else s.x j :=
  x_setPair s rd j r v

theorem val_lt (s : State) (i : Reg) : s.val i < 2 ^ 256 := (s.x i).isLt

/-- Two states with the same registers hold the same value in each. -/
theorem regs_ext {s t : State} (h : ∀ r, t.x r = s.x r) : t.regs = s.regs := by
  apply Vector.ext
  intro i hi
  exact h ⟨i, hi⟩

theorem getLsbD_wordOf (v : Word) (k : Fin 8) (j : Nat) :
    (wordOf v k).getLsbD j = (decide (j < 32) && v.getLsbD (wordLsb k + j)) := by
  simp [wordOf]

/-- Bits of a register after a window write: the word's own 32 bits come from the bus, the other 224 stay
(20_memory.md R55). -/
theorem getLsbD_replaceWord (v : Word) (k : Fin 8) (w : BusWord) (j : Nat) (hj : j < 256) :
    (replaceWord v k w).getLsbD j =
      if wordLsb k ≤ j ∧ j < wordLsb k + 32 then w.getLsbD (j - wordLsb k) else v.getLsbD j := by
  simp only [replaceWord, BitVec.getLsbD_or, BitVec.getLsbD_and, BitVec.getLsbD_not, BitVec.getLsbD_shiftLeft,
    BitVec.getLsbD_setWidth, BitVec.truncate_eq_setWidth, BitVec.getLsbD_allOnes]
  by_cases h1 : wordLsb k ≤ j
  · by_cases h2 : j < wordLsb k + 32
    · have : j - wordLsb k < 32 := by omega
      have : j - wordLsb k < 256 := by omega
      simp [Nat.not_lt.mpr h1, *]
    · have : ¬ j - wordLsb k < 32 := by omega
      have hw : w.getLsbD (j - wordLsb k) = false := BitVec.getLsbD_of_ge _ _ (by omega)
      simp [*]
  · have : j < wordLsb k := by omega
    simp [hj, h1, this]

end Sys2Proof.Machine
end

