-- ==== Sys2Proof/Laws/Bus.lean ====
section
/-! SUPPORT. What a bus write can do, and where the address map sends each word (20_memory.md R51 to R59). -/

namespace Sys2Proof.Machine

/-- The inversion of a bus write: what it does to the block. -/
theorem writeEffect_cases (s : State) (a : BusAddr) (v : BusWord) :
    ((busTarget a = .id ∨ busTarget a = .busError) ∧ s.writeEffect a v = s) ∨
    (busTarget a = .ctrl ∧ s.writeEffect a v = s.writeCtrl v) ∨
    (busTarget a = .status ∧ s.writeEffect a v = s.writeStatus v) ∨
    (busTarget a = .cmd ∧ s.busy = false ∧ s.writeEffect a v = s.accept v) ∨
    (∃ i k, busTarget a = .word i k ∧ s.busy = false ∧ s.writeEffect a v = s.setX i (replaceWord (s.x i) k v)) ∨
    ((busTarget a = .cmd ∨ ∃ i k, busTarget a = .word i k) ∧ s.busy = true ∧ s.writeEffect a v = s.dropWrite) := by
  unfold State.writeEffect State.writeCmd State.writeWord
  cases busTarget a <;> cases h : s.busy <;> simp

/-- Word k of Ri is at 0x100 + 0x20·i + 4·k (20_memory.md R52). -/
theorem busTarget_word (i : Reg) (k : Fin 8) :
    busTarget (BitVec.ofNat 12 (0x100 + 0x20 * i.val + 4 * k.val)) = .word i k := by
  revert i k; decide

/-- The four control registers (20_memory.md R51). -/
theorem busTarget_control :
    busTarget 0x000 = .id ∧ busTarget 0x004 = .ctrl ∧ busTarget 0x008 = .status ∧ busTarget 0x00C = .cmd := by
  decide

/-- The addresses a bus error answers (20_memory.md R53, R54). -/
theorem busTarget_busError (a : BusAddr) : busTarget a = .busError ↔
    a.toNat % 4 ≠ 0 ∨ (0x010 ≤ a.toNat ∧ a.toNat < 0x100) ∨ 0x300 ≤ a.toNat := by
  simp only [busTarget]
  split_ifs <;> simp only [true_iff, false_iff] <;> omega

/-- Every aligned address of 0x100 to 0x2FF is a word of the register window, and no other (20_memory.md R51). -/
theorem busTarget_isWord (a : BusAddr) : (∃ i k, busTarget a = .word i k) ↔
    0x100 ≤ a.toNat ∧ a.toNat ≤ 0x2FF ∧ a.toNat % 4 = 0 := by
  simp only [busTarget]
  split_ifs <;> simp <;> omega

/-- Only its own address names a control register (20_memory.md R51). -/
theorem busTarget_eq_control {a : BusAddr} :
    (busTarget a = .id ↔ a = 0x000) ∧ (busTarget a = .ctrl ↔ a = 0x004) ∧ (busTarget a = .status ↔ a = 0x008) ∧
      (busTarget a = .cmd ↔ a = 0x00C) := by
  have e (n : Nat) (hn : n < 4096) : a = BitVec.ofNat 12 n ↔ a.toNat = n := by
    rw [← BitVec.toNat_inj, BitVec.toNat_ofNat, Nat.mod_eq_of_lt hn]
  refine ⟨.trans ?_ (e 0x000 (by decide)).symm, .trans ?_ (e 0x004 (by decide)).symm,
    .trans ?_ (e 0x008 (by decide)).symm, .trans ?_ (e 0x00C (by decide)).symm⟩ <;> simp only [busTarget] <;>
    split_ifs <;> simp only [true_iff, false_iff] <;> omega

section Busy

variable {s : State} (h : s.busy = true)
include h

theorem windowWord_busy (i : Reg) (k : Fin 8) : s.windowWord i k = 0 := if_pos h

theorem writeWord_busy (i : Reg) (k : Fin 8) (v : BusWord) : s.writeWord i k v = s.dropWrite := if_pos h

theorem writeCmd_busy (v : BusWord) : s.writeCmd v = s.dropWrite := if_pos h

end Busy

section Idle

variable {s : State} (h : s.busy = false)
include h

theorem windowWord_idle (i : Reg) (k : Fin 8) : s.windowWord i k = wordOf (s.x i) k := by
  simp [State.windowWord, h]

theorem writeWord_idle (i : Reg) (k : Fin 8) (v : BusWord) :
    s.writeWord i k v = s.setX i (replaceWord (s.x i) k v) := by
  simp [State.writeWord, h]

theorem writeCmd_idle (v : BusWord) : s.writeCmd v = s.accept v := by
  simp [State.writeCmd, h]

end Idle

section Target

variable (s : State) {a : BusAddr} (v : BusWord)

theorem busWrite_id (h : busTarget a = .id) : s.busWrite a v = s.respond (.write false) := by
  rw [State.busWrite, State.writeEffect, writeResponse, h]; rfl

theorem busWrite_ctrl (h : busTarget a = .ctrl) : s.busWrite a v = (s.writeCtrl v).respond (.write false) := by
  rw [State.busWrite, State.writeEffect, writeResponse, h]; rfl

theorem busWrite_status (h : busTarget a = .status) : s.busWrite a v = (s.writeStatus v).respond (.write false) := by
  rw [State.busWrite, State.writeEffect, writeResponse, h]; rfl

theorem busWrite_cmd (h : busTarget a = .cmd) : s.busWrite a v = (s.writeCmd v).respond (.write false) := by
  rw [State.busWrite, State.writeEffect, writeResponse, h]; rfl

theorem busWrite_word {i : Reg} {k : Fin 8} (h : busTarget a = .word i k) :
    s.busWrite a v = (s.writeWord i k v).respond (.write false) := by
  rw [State.busWrite, State.writeEffect, writeResponse, h]; rfl

theorem busWrite_busError (h : busTarget a = .busError) : s.busWrite a v = s.respond (.write true) := by
  rw [State.busWrite, State.writeEffect, writeResponse, h]; rfl

theorem busRead_word {i : Reg} {k : Fin 8} (h : busTarget a = .word i k) :
    s.busRead a = s.respond (.read (s.windowWord i k) false) := by
  simp [State.busRead, State.readResponse, h]

theorem busRead_busError (h : busTarget a = .busError) : s.busRead a = s.respond (.read 0 true) := by
  simp [State.busRead, State.readResponse, h]

/-- While busy, a write leaves the command in flight and its operands (20_memory.md R58). -/
theorem busWrite_inFlight {s : State} (h : s.busy = true) (a : BusAddr) (v : BusWord) :
    (s.busWrite a v).busy = true ∧ (s.busWrite a v).cmdlast = s.cmdlast ∧ (s.busWrite a v).regs = s.regs ∧
      (s.busWrite a v).draws = s.draws := by
  simp only [State.busWrite, respond_busy, respond_cmdlast, respond_regs, respond_draws]
  rcases writeEffect_cases s a v with
    ⟨-, e⟩ | ⟨-, e⟩ | ⟨-, e⟩ | ⟨-, h', -⟩ | ⟨_, _, -, h', -⟩ | ⟨-, -, e⟩ <;> simp_all

/-- No write changes what is left to happen. -/
theorem busWrite_events (a : BusAddr) : (s.busWrite a v).events = s.events := by
  simp only [State.busWrite, respond_events]
  rcases writeEffect_cases s a v with
    ⟨-, e⟩ | ⟨-, e⟩ | ⟨-, e⟩ | ⟨-, -, e⟩ | ⟨_, _, -, -, e⟩ | ⟨-, -, e⟩ <;> rw [e] <;> rfl

end Target

end Sys2Proof.Machine
end

