-- ==== Sys2Proof/Laws/Decode.lean ====
section
/-! SUPPORT. The fields of an assembled word, and what a successful decoding says (30_encoding.md R70, R74, R78). -/

namespace Sys2Proof

/-- Bit j of an assembled word, as a bit of the field that holds it (30_encoding.md R70). -/
theorem getLsbD_assemble (op : BitVec 6) (rd ra rb rm : BitVec 4) (j : Nat) (hj : j < 32) :
    (assemble op rd.toFin ra.toFin rb.toFin rm.toFin).getLsbD j =
      if j < 10 then false else if j < 14 then rm.getLsbD (j - 10) else if j < 18 then rb.getLsbD (j - 14)
      else if j < 22 then ra.getLsbD (j - 18) else if j < 26 then rd.getLsbD (j - 22) else op.getLsbD (j - 26) := by
  have e (b : BitVec 4) : BitVec.ofNat 32 b.toFin.val = b.setWidth 32 := by
    apply BitVec.eq_of_toNat_eq; simp [BitVec.toNat_setWidth]
  simp only [assemble, e, BitVec.truncate_eq_setWidth, BitVec.getLsbD_or, BitVec.getLsbD_shiftLeft,
    BitVec.getLsbD_setWidth]
  interval_cases j <;> simp

/-- A field of a word, bit by bit. -/
theorem operandField_eq {w : BusWord} {lo : Nat} {b : BitVec 4}
    (h : ∀ j < 4, w.getLsbD (lo + j) = b.getLsbD j) : operandField w lo = b.toFin := by
  have : w.extractLsb' lo 4 = b := by
    apply BitVec.eq_of_getLsbD_eq
    intro j hj
    simp [hj, h j hj]
  rw [operandField, this]

@[simp] theorem opField_assemble (op : BitVec 6) (rd ra rb rm : Fin 16) :
    opField (assemble op rd ra rb rm) = op := by
  apply BitVec.eq_of_getLsbD_eq
  intro j hj
  simp only [opField, BitVec.getLsbD_extractLsb', hj, decide_true, Bool.true_and]
  rw [getLsbD_assemble op ⟨rd⟩ ⟨ra⟩ ⟨rb⟩ ⟨rm⟩ (26 + j) (by omega)]
  interval_cases j <;> simp

@[simp] theorem rdField_assemble (op : BitVec 6) (rd ra rb rm : Fin 16) :
    rdField (assemble op rd ra rb rm) = rd := by
  refine operandField_eq (b := ⟨rd⟩) fun j hj => ?_
  rw [getLsbD_assemble op ⟨rd⟩ ⟨ra⟩ ⟨rb⟩ ⟨rm⟩ (22 + j) (by omega)]
  interval_cases j <;> simp

@[simp] theorem raField_assemble (op : BitVec 6) (rd ra rb rm : Fin 16) :
    raField (assemble op rd ra rb rm) = ra := by
  refine operandField_eq (b := ⟨ra⟩) fun j hj => ?_
  rw [getLsbD_assemble op ⟨rd⟩ ⟨ra⟩ ⟨rb⟩ ⟨rm⟩ (18 + j) (by omega)]
  interval_cases j <;> simp

@[simp] theorem rbField_assemble (op : BitVec 6) (rd ra rb rm : Fin 16) :
    rbField (assemble op rd ra rb rm) = rb := by
  refine operandField_eq (b := ⟨rb⟩) fun j hj => ?_
  rw [getLsbD_assemble op ⟨rd⟩ ⟨ra⟩ ⟨rb⟩ ⟨rm⟩ (14 + j) (by omega)]
  interval_cases j <;> simp

@[simp] theorem rmField_assemble (op : BitVec 6) (rd ra rb rm : Fin 16) :
    rmField (assemble op rd ra rb rm) = rm := by
  refine operandField_eq (b := ⟨rm⟩) fun j hj => ?_
  rw [getLsbD_assemble op ⟨rd⟩ ⟨ra⟩ ⟨rb⟩ ⟨rm⟩ (10 + j) (by omega)]
  interval_cases j <;> simp

/-- Each row's op field selects that row (30_encoding.md R74). -/
@[simp] theorem ofBits_bits (o : Opcode) : Opcode.ofBits o.bits = some o := by cases o <;> rfl

/-- Only a row's own op field selects it. -/
theorem bits_of_ofBits {b : BitVec 6} {o : Opcode} (h : Opcode.ofBits b = some o) : o.bits = b := by
  revert b o; decide

/-- The inversion of the decoder: the word passed the three checks of 30_encoding.md R78 for its row. -/
theorem decode_ok {w : BusWord} {i : Instr} (h : decode w = .ok i) :
    ∃ o, Opcode.ofBits (opField w) = some o ∧ w &&& o.mask = o.pattern ∧ (o = .ldc → (raField w).val ≤ 4) ∧
      i = o.instr w := by
  unfold decode at h
  split at h
  · cases h
  · next o ho =>
    split at h
    · cases h
    · next hm =>
      split at h
      · cases h
      · next hk =>
        cases h
        exact ⟨o, ho, by simpa using hm, fun e => by subst e; simpa using hk, rfl⟩

@[simp] theorem opcode_instr (o : Opcode) (w : BusWord) : (o.instr w).opcode = o := by cases o <;> rfl

end Sys2Proof
end

