-- ==== Sys2Proof/Laws/Primes.lean ====
section
/-! SUPPORT. P and N are prime, by Lucas's test with a full factorisation at each level (93_implementation_defined.md
GK3: claims that need N prime take it as an assumption or prove it). -/

namespace Sys2Proof.Machine

/-- `a ^ e % m` by squaring, `n` bits of the exponent at most. -/
def powMod (m : ℕ) : ℕ → ℕ → ℕ → ℕ
  | 0, _, _ => 1 % m
  | n + 1, a, e =>
    if e % 2 = 1 then a * powMod m n (a * a % m) (e / 2) % m else powMod m n (a * a % m) (e / 2)

theorem powMod_eq (m n a e : ℕ) (h : e < 2 ^ n) : powMod m n a e = a ^ e % m := by
  induction n generalizing a e with
  | zero => simp_all [powMod]
  | succ n ih =>
    have he : e / 2 < 2 ^ n := by rw [pow_succ] at h; omega
    have sq : (a * a % m) ^ (e / 2) % m = a ^ (2 * (e / 2)) % m := by
      rw [← Nat.pow_mod, ← pow_two, ← pow_mul]
    rw [powMod, ih _ _ he, sq]
    split
    · next ho =>
      rw [← Nat.mul_mod_mod, Nat.mod_mod, Nat.mul_mod_mod, ← pow_succ']
      congr 2; omega
    · next ho => congr 2; omega

/-- A Lucas certificate: p, a primitive root a, and the prime factors of p − 1 with repetition. -/
structure LucasCertificate where
  p : ℕ
  a : ℕ
  factors : List ℕ

/-- Lucas's test, the factors' primality apart. -/
def LucasCertificate.holds (c : LucasCertificate) : Bool :=
  1 < c.p && c.p < 2 ^ 256 && c.factors.prod == c.p - 1 && powMod c.p 256 c.a (c.p - 1) == 1 &&
    c.factors.all fun q => powMod c.p 256 c.a ((c.p - 1) / q) != 1

theorem LucasCertificate.prime {c : LucasCertificate} (hf : ∀ q ∈ c.factors, q.Prime) (h : c.holds = true) :
    c.p.Prime := by
  simp only [holds, Bool.and_eq_true, decide_eq_true_eq, beq_iff_eq] at h
  obtain ⟨⟨⟨⟨hp, hw⟩, hprod⟩, h1⟩, hd⟩ := h
  have key (n : ℕ) (hn : n ≤ c.p - 1) : ((c.a : ZMod c.p) ^ n = 1) ↔ powMod c.p 256 c.a n = 1 := by
    rw [powMod_eq _ _ _ _ (by omega), ← Nat.cast_pow, ← Nat.cast_one, ZMod.natCast_eq_natCast_iff',
      Nat.mod_eq_of_lt hp]
  refine lucas_primality c.p c.a ((key _ le_rfl).2 h1) fun q hq hdvd => ?_
  rw [Ne, key _ (Nat.div_le_self _ _)]
  rw [← hprod] at hdvd
  obtain ⟨r, hr, hqr⟩ := (Nat.Prime.prime hq).dvd_prod_iff.mp hdvd
  rw [(Nat.prime_dvd_prime_iff_eq hq (hf r hr)).mp hqr]
  simpa using List.all_eq_true.mp hd r hr

/-- A chain of certificates, each using primes known before it. -/
def chainHolds (known : List ℕ) : List LucasCertificate → Bool
  | [] => true
  | c :: cs => c.factors.all (known.contains ·) && c.holds && chainHolds (c.p :: known) cs

theorem prime_of_chain {known : List ℕ} {cs : List LucasCertificate} (hk : ∀ q ∈ known, q.Prime)
    (h : chainHolds known cs = true) : ∀ c ∈ cs, c.p.Prime := by
  induction cs generalizing known with
  | nil => simp
  | cons c cs ih =>
    simp only [chainHolds, Bool.and_eq_true, List.all_eq_true, List.contains_iff_mem] at h
    have hc := LucasCertificate.prime (fun q hq => hk q (h.1.1 q hq)) h.1.2
    exact List.forall_mem_cons.mpr ⟨hc, ih (List.forall_mem_cons.mpr ⟨hc, hk⟩) h.2⟩

/-- The small primes the chain starts from. -/
def smallPrimes : List ℕ :=
  [2, 3, 5, 7, 11, 17, 29, 31, 41, 53, 59, 109, 149, 293, 461, 631, 797, 971, 1373, 1627, 2621, 2657,
   4051, 4423, 5323, 7723, 9349, 13441, 16699, 24809, 28181, 41201, 85831, 96557, 120233, 305873,
   1627771, 4681609, 7240687]

theorem smallPrimes_prime : ∀ q ∈ smallPrimes, q.Prime := by
  simp only [smallPrimes, List.forall_mem_cons, List.not_mem_nil, false_imp_iff, implies_true, and_true]
  norm_num

/-- The chain to P and N. -/
def certificates : List LucasCertificate :=
  [⟨107590001, 3, [2, 2, 2, 2, 5, 5, 5, 5, 7, 29, 53]⟩,
   ⟨255515944373312847190720520512484175977, 3, [2, 2, 2, 7, 7, 11, 1627, 2657, 4423, 41201, 96557, 7240687, 107590001]⟩,
   ⟨13331831, 13, [2, 5, 971, 1373]⟩,
   ⟨173378833005251801, 6, [2, 2, 2, 5, 5, 2621, 24809, 13331831]⟩,
   ⟨22149492674086928081353, 5, [2, 2, 2, 3, 5323, 173378833005251801]⟩,
   ⟨132896956044521568488119, 6, [2, 3, 22149492674086928081353]⟩,
   ⟨205115282021455665897114700593932402728804164701536103180137503955397371, 10, [2, 3, 5, 29, 29, 31, 7723, 132896956044521568488119, 255515944373312847190720520512484175977]⟩,
   ⟨fieldPrime, 3, [2, 3, 7, 13441, 205115282021455665897114700593932402728804164701536103180137503955397371]⟩,
   ⟨44706919, 6, [2, 3, 797, 9349]⟩,
   ⟨174723607534414371449, 3, [2, 2, 2, 17, 59, 4051, 120233, 44706919]⟩,
   ⟨107361793816595537, 3, [2, 2, 2, 2, 16699, 85831, 4681609]⟩,
   ⟨297159362677, 2, [2, 2, 3, 3, 11, 461, 1627771]⟩,
   ⟨545358713, 5, [2, 2, 2, 41, 59, 28181]⟩,
   ⟨29047611873442575647497758179, 2, [2, 293, 305873, 545358713, 297159362677]⟩,
   ⟨341948486974166000522343609283189, 2, [2, 2, 3, 3, 3, 109, 29047611873442575647497758179]⟩,
   ⟨groupOrder, 7, [2, 2, 2, 2, 2, 2, 3, 149, 631, 107361793816595537, 174723607534414371449, 341948486974166000522343609283189]⟩]

theorem certificates_prime : ∀ c ∈ certificates, c.p.Prime :=
  prime_of_chain smallPrimes_prime (by decide +kernel)

theorem fieldPrime_prime : fieldPrime.Prime :=
  certificates_prime _ (List.mem_of_getElem? (i := 7) rfl)

theorem groupOrder_prime : groupOrder.Prime :=
  certificates_prime _ (List.mem_of_getElem? (i := 15) rfl)

end Sys2Proof.Machine
end

