-- ==== Sys2Proof/Laws/Field.lean ====
section
/-! SUPPORT. The field functions of 41_curve.md, read in the field of P: each is the field's own operation. -/

namespace Sys2Proof.Machine

theorem cast_mod_fieldPrime (a : Nat) : ((a % fieldPrime : Nat) : ZMod fieldPrime) = a := ZMod.natCast_mod a _

/-- Reduced values are equal exactly when their residues are. -/
theorem cast_eq_cast {a b : Nat} (ha : a < fieldPrime) (hb : b < fieldPrime) :
    (a : ZMod fieldPrime) = b ↔ a = b := by
  rw [ZMod.natCast_eq_natCast_iff', Nat.mod_eq_of_lt ha, Nat.mod_eq_of_lt hb]

theorem cast_ne_zero {a : Nat} (ha : a < fieldPrime) (h : a ≠ 0) : (a : ZMod fieldPrime) ≠ 0 := by
  rw [← Nat.cast_zero, Ne, cast_eq_cast ha fieldPrime_pos]
  exact h

theorem fadd_cast (u v : Nat) : (fadd u v : ZMod fieldPrime) = (u : ZMod fieldPrime) + (v : ZMod fieldPrime) := by
  rw [fadd, addM_eq, cast_mod_fieldPrime, Nat.cast_add]

theorem fsub_cast (u v : Nat) : (fsub u v : ZMod fieldPrime) = (u : ZMod fieldPrime) - (v : ZMod fieldPrime) := by
  have h := congrArg (Int.cast : Int → ZMod fieldPrime) (subM_eq u v fieldPrime_pos)
  rw [ZMod.intCast_mod] at h
  push_cast at h
  exact h

theorem fmul_cast (u v : Nat) : (fmul u v : ZMod fieldPrime) = (u : ZMod fieldPrime) * (v : ZMod fieldPrime) := by
  rw [fmul, mulM_eq, cast_mod_fieldPrime, Nat.cast_mul]

/-- Fermat's power is the inverse in a prime field. -/
theorem pow_sub_two {p : Nat} [Fact p.Prime] (hp : 2 < p) {v : ZMod p} (h : v ≠ 0) : v ^ (p - 2) = v⁻¹ := by
  symm
  apply inv_eq_of_mul_eq_one_left
  rw [← pow_succ, show p - 2 + 1 = p - 1 by omega]
  exact ZMod.pow_card_sub_one_eq_one h

/-- Division by a nonzero residue is the field's division, P being prime (fieldPrime_prime gives the fact). -/
theorem fdiv_cast [Fact fieldPrime.Prime] (u : Nat) {v : Nat} (h : (v : ZMod fieldPrime) ≠ 0) :
    (fdiv u v : ZMod fieldPrime) = (u : ZMod fieldPrime) / (v : ZMod fieldPrime) := by
  rw [fdiv, divM_eq _ _ fieldPrime_pos (by decide), cast_mod_fieldPrime, Nat.cast_mul, Nat.cast_pow,
    pow_sub_two (by decide) h, div_eq_mul_inv]

/-- The common tail of both formulas, in the field (41_curve.md R132, R135). -/
theorem chord_cast (l x1 y1 x2 : Nat) :
    ((chord l x1 y1 x2).x : ZMod fieldPrime) = (l : ZMod fieldPrime) ^ 2 - x1 - x2 ∧
    ((chord l x1 y1 x2).y : ZMod fieldPrime) = l * (x1 - (chord l x1 y1 x2).x) - y1 := by
  constructor <;> simp only [chord, fsub_cast, fmul_cast, pow_two]

theorem isId_iff (p : Point) : isId p = true ↔ p = identity := by
  cases p
  simp [isId, identity]

end Sys2Proof.Machine
end

