-- ==== Sys2Proof/Laws/Ops.lean ====
section
/-! SUPPORT. What each shared operation over the state can do, said once, and the inversion of `exec`, `engineTurn` and
`step`: later proofs cite these instead of unfolding. -/

namespace Sys2Proof.Machine

/-- A modulus check of ADDM, SUBM, MULM, EXPM raises MOD_ZERO or finishes (40_modular.md R100). -/
theorem checkedModZero_cases (s : State) (rd rm : Reg) (v : Nat) :
    (s.val rm = 0 ∧ s.checkedModZero rd rm v = s.raise .modZero) ∨
    (s.val rm ≠ 0 ∧ s.checkedModZero rd rm v = s.finishScalar rd v) := by
  by_cases h : s.val rm = 0 <;> simp [State.checkedModZero, h]

/-- A modulus check of INVM, DIVM raises PRECONDITION or finishes (40_modular.md R100). -/
theorem checkedPrecondition_cases (s : State) (rd rm : Reg) (v : Nat) :
    (s.val rm ≤ 2 ∧ s.checkedPrecondition rd rm v = s.raise .precondition) ∨
    (2 < s.val rm ∧ s.checkedPrecondition rd rm v = s.finishScalar rd v) := by
  by_cases h : s.val rm ≤ 2
  · exact .inl ⟨h, by simp [State.checkedPrecondition, h]⟩
  · exact .inr ⟨by omega, by simp [State.checkedPrecondition, h]⟩

/-- A ROM entry exists exactly for the legal indexes (30_encoding.md R71). -/
theorem romEntry_isSome {k : Nat} : (romEntry k).isSome = true ↔ k ≤ 4 := by
  rcases k with _ | _ | _ | _ | _ | k <;> simp [romEntry]

/-- Everything a command can do to the state. -/
inductive Effect (i : Instr) (s t : State) : Prop where
  /-- A scalar result in rd. -/
  | scalar (rd : Reg) (v : Nat) (h : t = s.finishScalar rd v)
  /-- A point result in the pair rd. -/
  | point (rd : Reg) (p : Point) (h : t = s.finishPoint rd p)
  /-- A signature in the pair rd; the draws taken have left the port. -/
  | signature (rd ra rb : Reg) (rs : Nat × Nat) (rest : List Word) (hi : i = .sign rd ra rb)
      (hs : signLoop (s.val ra) (s.val rb) s.draws = some (rs, rest))
      (h : t = s.finishSignature rd rs.1 rs.2 rest)
  /-- A SIGN still waiting for a usable draw. -/
  | waiting (rd ra rb : Reg) (hi : i = .sign rd ra rb)
      (hs : signLoop (s.val ra) (s.val rb) s.draws = none) (h : t = s)
  /-- A verify result. -/
  | verdict (ra rb rm : Reg) (hi : i = .verify ra rb rm)
      (h : t = s.finishVerdict
        (verifySig (s.val ra) (s.val rb) (s.val (pairY rb)) (s.val rm) (s.val (pairY rm))))
  /-- An error. -/
  | error (e : ErrorCode) (h : t = s.raise e)

theorem effect_of_checkedModZero {i : Instr} {s t : State} {rd rm : Reg} {v : Nat}
    (h : t = s.checkedModZero rd rm v) : Effect i s t := by
  rcases checkedModZero_cases s rd rm v with ⟨-, e⟩ | ⟨-, e⟩
  · exact .error .modZero (h.trans e)
  · exact .scalar rd v (h.trans e)

theorem effect_of_checkedPrecondition {i : Instr} {s t : State} {rd rm : Reg} {v : Nat}
    (h : t = s.checkedPrecondition rd rm v) : Effect i s t := by
  rcases checkedPrecondition_cases s rd rm v with ⟨-, e⟩ | ⟨-, e⟩
  · exact .error .precondition (h.trans e)
  · exact .scalar rd v (h.trans e)

/-- The inversion of `exec`: every command answers a next state, by one of these effects. -/
theorem exec_effect (i : Instr) (s : State) : ∃ t, exec i s = .next t ∧ Effect i s t := by
  cases i with
  | addm => exact ⟨_, rfl, effect_of_checkedModZero rfl⟩
  | subm => exact ⟨_, rfl, effect_of_checkedModZero rfl⟩
  | mulm => exact ⟨_, rfl, effect_of_checkedModZero rfl⟩
  | expm => exact ⟨_, rfl, effect_of_checkedModZero rfl⟩
  | invm => exact ⟨_, rfl, effect_of_checkedPrecondition rfl⟩
  | divm => exact ⟨_, rfl, effect_of_checkedPrecondition rfl⟩
  | ldc rd k =>
    simp only [exec, execLdc]
    cases romEntry k.val with
    | some v => exact ⟨_, rfl, .scalar rd v.toNat rfl⟩
    | none => exact ⟨_, rfl, .error .illegalOperand rfl⟩
  | padd => exact ⟨_, rfl, .point _ _ rfl⟩
  | pdbl => exact ⟨_, rfl, .point _ _ rfl⟩
  | smul => exact ⟨_, rfl, .point _ _ rfl⟩
  | pubk => exact ⟨_, rfl, .point _ _ rfl⟩
  | sign rd ra rb =>
    simp only [exec, execSign]
    split
    · next h => exact ⟨_, rfl, .signature rd ra rb _ _ rfl h rfl⟩
    · next h => exact ⟨_, rfl, .waiting rd ra rb rfl h rfl⟩
  | verify ra rb rm => exact ⟨_, rfl, .verdict ra rb rm rfl rfl⟩

theorem effect_of_exec {i : Instr} {s t : State} (h : exec i s = .next t) : Effect i s t := by
  obtain ⟨t', h', he⟩ := exec_effect i s
  cases h.symm.trans h'
  exact he

/-- No command writes OVR, CTRL, CMDLAST, the events or the bus response (10_state.md R37; 60_exceptions.md R181). -/
theorem Effect.outside {i : Instr} {s t : State} (h : Effect i s t) :
    t.ovr = s.ovr ∧ t.irqen = s.irqen ∧ t.cmdlast = s.cmdlast ∧ t.events = s.events ∧ t.resp = s.resp := by
  cases h <;> subst_vars <;> simp

/-- The inversion of an engine turn: idle and unchanged, a decoded command's effect, or a decoding error. -/
theorem engineTurn_cases {s t : State} (h : engineTurn s = .next t) :
    (s.busy = false ∧ t = s) ∨
    (s.busy = true ∧ ∃ i, decode s.cmdlast = .ok i ∧ exec i s = .next t) ∨
    (s.busy = true ∧ ∃ e, decode s.cmdlast = .error e ∧ t = s.raise (decodeErrorCode e)) := by
  unfold engineTurn at h
  split at h
  · next hb =>
    unfold engineStep at h
    split at h
    · next i hd => exact .inr (.inl ⟨hb, i, hd, h⟩)
    · next e hd => exact .inr (.inr ⟨hb, e, hd, by cases h; rfl⟩)
  · next hb => exact .inl ⟨by simpa using hb, by cases h; rfl⟩

/-- Every engine turn answers a next state. -/
theorem engineTurn_next (s : State) : ∃ t, engineTurn s = .next t := by
  unfold engineTurn engineStep
  split
  · split
    · exact (exec_effect _ _).imp fun _ h => h.1
    · exact ⟨_, rfl⟩
  · exact ⟨_, rfl⟩

/-- A step on a pending read. -/
theorem step_read {s : State} {a : BusAddr} {rest : List Event} (h : s.events = .read a :: rest) :
    step s = .next ((s.setEvents rest).busRead a) := by
  simp [step, nextStep, h, performEvent]

/-- A step on a pending write. -/
theorem step_write {s : State} {a : BusAddr} {v : BusWord} {rest : List Event} (h : s.events = .write a v :: rest) :
    step s = .next ((s.setEvents rest).busWrite a v) := by
  simp [step, nextStep, h, performEvent]

/-- A step on a pending engine turn. -/
theorem step_engine {s : State} {rest : List Event} (h : s.events = .engine :: rest) :
    step s = engineTurn (s.setEvents rest) := by
  simp [step, nextStep, h, performEvent]

/-- A step on a pending reset. -/
theorem step_reset {s : State} {n : Nat} {rest : List Event} (h : s.events = .reset n :: rest) :
    step s = .next ((s.setEvents rest).resetEvent n) := by
  simp [step, nextStep, h, performEvent]

/-- A step with nothing pending. -/
theorem step_nil {s : State} (h : s.events = []) : step s = engineTurn s := by
  simp [step, nextStep, h]

/-- The inversion of a step: the engine's turn when nothing is pending, else the oldest event. -/
theorem step_cases {s t : State} (h : step s = .next t) :
    (s.events = [] ∧ engineTurn s = .next t) ∨
    (∃ a rest, s.events = .read a :: rest ∧ t = (s.setEvents rest).busRead a) ∨
    (∃ a v rest, s.events = .write a v :: rest ∧ t = (s.setEvents rest).busWrite a v) ∨
    (∃ rest, s.events = .engine :: rest ∧ engineTurn (s.setEvents rest) = .next t) ∨
    (∃ n rest, s.events = .reset n :: rest ∧ t = (s.setEvents rest).resetEvent n) := by
  unfold step nextStep at h
  split at h
  · next he => exact .inl ⟨he, h⟩
  · next e rest he =>
    cases e with
    | read a => exact .inr (.inl ⟨a, rest, he, by cases h; rfl⟩)
    | write a v => exact .inr (.inr (.inl ⟨a, v, rest, he, by cases h; rfl⟩))
    | engine => exact .inr (.inr (.inr (.inl ⟨rest, he, h⟩)))
    | reset n => exact .inr (.inr (.inr (.inr ⟨n, rest, he, by cases h; rfl⟩)))

/-- Nothing stops the machine: every step answers a next state. -/
theorem step_next (s : State) : ∃ t, step s = .next t := by
  unfold step nextStep
  split
  · exact engineTurn_next s
  · next e rest _ =>
    cases e with
    | read a => exact ⟨_, rfl⟩
    | write a v => exact ⟨_, rfl⟩
    | engine => exact engineTurn_next _
    | reset n => exact ⟨_, rfl⟩

end Sys2Proof.Machine
end

