-- ==== Sys2Proof/Laws/PerInstr.lean ====
section
/-! SUPPORT. Family EncodedRow, per constructor: the word of a legal command passes the mask and match of its own row of
the opcode map (30_encoding.md R74, R79). -/

namespace Sys2Proof

/-- The low bit of an even register number is 0 (30_encoding.md R71). -/
theorem Reg.testBit_zero_of_isPair {i : Reg} (h : Reg.isPair i = true) : i.val.testBit 0 = false := by
  revert i; decide

/-- A mask test on an assembled word, bit by bit. -/
theorem masked_assemble {op : BitVec 6} {rd ra rb rm : Fin 16} {mask pattern : BusWord}
    (h : ∀ j < 32, (assemble op rd ra rb rm).getLsbD j = pattern.getLsbD j ∧ mask.getLsbD j = true ∨
      mask.getLsbD j = false ∧ pattern.getLsbD j = false) : assemble op rd ra rb rm &&& mask = pattern := by
  apply BitVec.eq_of_getLsbD_eq
  intro j hj
  rcases h j hj with ⟨h1, h2⟩ | ⟨h1, h2⟩ <;> simp [h1, h2]

namespace Laws.EncodedRow

/-- The encoded word is one of its row's legal words (30_encoding.md R74). -/
def Statement (i : Instr) : Prop := i.WellFormed → encode i &&& i.opcode.mask = i.opcode.pattern

theorem addm (rd ra rb rm : Reg) : Statement (.addm rd ra rb rm) := fun _ => masked_assemble fun j hj => by
  rw [getLsbD_assemble _ ⟨rd⟩ ⟨ra⟩ ⟨rb⟩ ⟨rm⟩ j hj]
  interval_cases j <;> simp [Instr.opcode, Opcode.bits, Opcode.mask, Opcode.pattern]

theorem subm (rd ra rb rm : Reg) : Statement (.subm rd ra rb rm) := fun _ => masked_assemble fun j hj => by
  rw [getLsbD_assemble _ ⟨rd⟩ ⟨ra⟩ ⟨rb⟩ ⟨rm⟩ j hj]
  interval_cases j <;> simp [Instr.opcode, Opcode.bits, Opcode.mask, Opcode.pattern]

theorem mulm (rd ra rb rm : Reg) : Statement (.mulm rd ra rb rm) := fun _ => masked_assemble fun j hj => by
  rw [getLsbD_assemble _ ⟨rd⟩ ⟨ra⟩ ⟨rb⟩ ⟨rm⟩ j hj]
  interval_cases j <;> simp [Instr.opcode, Opcode.bits, Opcode.mask, Opcode.pattern]

theorem expm (rd ra rb rm : Reg) : Statement (.expm rd ra rb rm) := fun _ => masked_assemble fun j hj => by
  rw [getLsbD_assemble _ ⟨rd⟩ ⟨ra⟩ ⟨rb⟩ ⟨rm⟩ j hj]
  interval_cases j <;> simp [Instr.opcode, Opcode.bits, Opcode.mask, Opcode.pattern]

theorem invm (rd ra rm : Reg) : Statement (.invm rd ra rm) := fun _ => masked_assemble fun j hj => by
  rw [getLsbD_assemble _ ⟨rd⟩ ⟨ra⟩ ⟨0⟩ ⟨rm⟩ j hj]
  interval_cases j <;> simp [Instr.opcode, Opcode.bits, Opcode.mask, Opcode.pattern]

theorem divm (rd ra rb rm : Reg) : Statement (.divm rd ra rb rm) := fun _ => masked_assemble fun j hj => by
  rw [getLsbD_assemble _ ⟨rd⟩ ⟨ra⟩ ⟨rb⟩ ⟨rm⟩ j hj]
  interval_cases j <;> simp [Instr.opcode, Opcode.bits, Opcode.mask, Opcode.pattern]

theorem ldc (rd : Reg) (k : Fin 16) : Statement (.ldc rd k) := fun _ => masked_assemble fun j hj => by
  rw [getLsbD_assemble _ ⟨rd⟩ ⟨k⟩ ⟨0⟩ ⟨0⟩ j hj]
  interval_cases j <;> simp [Instr.opcode, Opcode.bits, Opcode.mask, Opcode.pattern]

theorem padd (rd ra rb : Reg) : Statement (.padd rd ra rb) := fun h => masked_assemble fun j hj => by
  simp only [Instr.WellFormed, Instr.wf, Bool.and_eq_true] at h
  have hrd := Reg.testBit_zero_of_isPair h.1.1
  have hra := Reg.testBit_zero_of_isPair h.1.2
  have hrb := Reg.testBit_zero_of_isPair h.2
  rw [getLsbD_assemble _ ⟨rd⟩ ⟨ra⟩ ⟨rb⟩ ⟨0⟩ j hj]
  interval_cases j <;> simp_all [Instr.opcode, Opcode.bits, Opcode.mask, Opcode.pattern]

theorem pdbl (rd ra : Reg) : Statement (.pdbl rd ra) := fun h => masked_assemble fun j hj => by
  simp only [Instr.WellFormed, Instr.wf, Bool.and_eq_true] at h
  have hrd := Reg.testBit_zero_of_isPair h.1
  have hra := Reg.testBit_zero_of_isPair h.2
  rw [getLsbD_assemble _ ⟨rd⟩ ⟨ra⟩ ⟨0⟩ ⟨0⟩ j hj]
  interval_cases j <;> simp_all [Instr.opcode, Opcode.bits, Opcode.mask, Opcode.pattern]

theorem smul (rd ra rb : Reg) : Statement (.smul rd ra rb) := fun h => masked_assemble fun j hj => by
  simp only [Instr.WellFormed, Instr.wf, Bool.and_eq_true] at h
  have hrd := Reg.testBit_zero_of_isPair h.1
  have hrb := Reg.testBit_zero_of_isPair h.2
  rw [getLsbD_assemble _ ⟨rd⟩ ⟨ra⟩ ⟨rb⟩ ⟨0⟩ j hj]
  interval_cases j <;> simp_all [Instr.opcode, Opcode.bits, Opcode.mask, Opcode.pattern]

theorem pubk (rd ra : Reg) : Statement (.pubk rd ra) := fun h => masked_assemble fun j hj => by
  simp only [Instr.WellFormed, Instr.wf] at h
  have hrd := Reg.testBit_zero_of_isPair h
  rw [getLsbD_assemble _ ⟨rd⟩ ⟨ra⟩ ⟨0⟩ ⟨0⟩ j hj]
  interval_cases j <;> simp_all [Instr.opcode, Opcode.bits, Opcode.mask, Opcode.pattern]

theorem sign (rd ra rb : Reg) : Statement (.sign rd ra rb) := fun h => masked_assemble fun j hj => by
  simp only [Instr.WellFormed, Instr.wf] at h
  have hrd := Reg.testBit_zero_of_isPair h
  rw [getLsbD_assemble _ ⟨rd⟩ ⟨ra⟩ ⟨rb⟩ ⟨0⟩ j hj]
  interval_cases j <;> simp_all [Instr.opcode, Opcode.bits, Opcode.mask, Opcode.pattern]

theorem verify (ra rb rm : Reg) : Statement (.verify ra rb rm) := fun h => masked_assemble fun j hj => by
  simp only [Instr.WellFormed, Instr.wf, Bool.and_eq_true] at h
  have hrb := Reg.testBit_zero_of_isPair h.1
  have hrm := Reg.testBit_zero_of_isPair h.2
  rw [getLsbD_assemble _ ⟨0⟩ ⟨ra⟩ ⟨rb⟩ ⟨rm⟩ j hj]
  interval_cases j <;> simp_all [Instr.opcode, Opcode.bits, Opcode.mask, Opcode.pattern]

end Laws.EncodedRow

end Sys2Proof
end

