-- ==== Sys2Proof/Tests/Slice0.lean ====
section
/-! SUPPORT. Tests, and for each obligation with hypotheses a concrete state and operands that meet them. Expected
values come from spec/95_test_vectors.md (its vector is named in the comment) and from the words of 30_encoding.md R81. -/

namespace Sys2Proof.Tests

open Sys2Proof.Machine Sys2Proof.Claims

/-- The reset state with these registers written. -/
def loaded (regs : List (Reg × Word)) : State := regs.foldl (fun s r => s.setX r.1 r.2) State.reset

/-- The same with the command word w in flight. -/
def inFlight (w : BusWord) (regs : List (Reg × Word)) : State := (loaded regs).accept w

/-- The same with events pending. -/
def pending (s : State) (events : List Event) : State := s.setEvents events

/-- What holds after an outcome that is a next state. -/
def after (o : Host.Outcome State Fault Refusal) (f : State → Bool) : Bool :=
  match o with
  | .next t => f t
  | .fault _ => false
  | .refused _ => false

/-- The state after an outcome. -/
def nextOf (o : Host.Outcome State Fault Refusal) : State :=
  match o with
  | .next t => t
  | .fault _ => State.reset
  | .refused _ => State.reset

/-- The engine's turn on a command word over these registers. -/
def engine (w : BusWord) (regs : List (Reg × Word)) (f : State → Bool) : Bool := after (engineTurn (inFlight w regs)) f

/-- Registers rd and rd+1 hold (x, y), Z is z, and the command succeeded. -/
def pairIs (rd : Reg) (x y : Word) (z : Bool) (t : State) : Bool :=
  t.x rd == x && t.x (rd + 1) == y && t.z == z && t.done && !t.err

def P : Word := 0xFFFFFFFFFFFFFFFFFFFFFFFFFFFFFFFFFFFFFFFFFFFFFFFFFFFFFFFEFFFFFC2F
def N : Word := 0xFFFFFFFFFFFFFFFFFFFFFFFFFFFFFFFEBAAEDCE6AF48A03BBFD25E8CD0364141
def GX : Word := 0x79BE667EF9DCBBAC55A06295CE870B07029BFCDB2DCE28D959F2815B16F81798
def GY : Word := 0x483ADA7726A3C4655DA4FBFC0E1108A8FD17B448A68554199C47D08FFB10D4B8
def G2X : Word := 0xC6047F9441ED7D6D3045406E95C07CD85C778E4B8CEF3CA7ABAC09B95C709EE5
def G2Y : Word := 0x1AE168FEA63DC339A3C58419466CEAEEF7F632653266D0E1236431A950CFE52A
def G3X : Word := 0xF9308A019258C31049344F85F89D5229B531C845836F99B08601F113BCE036F9
def G3Y : Word := 0x388F7B0F632DE8140FE337E62A37F3566500A99934C2231B6CB9FD7584B8E672

/-! ### WellFormed: each check refuses an ill-formed term -/

theorem test_wf_ldc : (Instr.ldc 0 4).wf = true ∧ (Instr.ldc 0 5).wf = false := by decide
theorem test_wf_padd : (Instr.padd 0 2 4).wf = true ∧ (Instr.padd 1 2 4).wf = false ∧ (Instr.padd 0 3 4).wf = false ∧
    (Instr.padd 0 2 5).wf = false := by decide
theorem test_wf_pdbl : (Instr.pdbl 0 2).wf = true ∧ (Instr.pdbl 15 2).wf = false ∧ (Instr.pdbl 0 3).wf = false := by decide
theorem test_wf_smul : (Instr.smul 0 1 2).wf = true ∧ (Instr.smul 1 1 2).wf = false ∧ (Instr.smul 0 1 3).wf = false := by
  decide
theorem test_wf_pubk : (Instr.pubk 0 1).wf = true ∧ (Instr.pubk 1 1).wf = false := by decide
theorem test_wf_sign : (Instr.sign 0 1 3).wf = true ∧ (Instr.sign 13 1 3).wf = false := by decide
theorem test_wf_verify : (Instr.verify 1 2 4).wf = true ∧ (Instr.verify 1 3 4).wf = false ∧
    (Instr.verify 1 2 13).wf = false := by decide

/-! ### Decoding: one word of each command, from its fields op|rd|ra|rb|rm|rsv bit by bit (R70), the word of R81 -/

theorem test_decode_addm : decode 0b000001_0011_0001_0010_0100_0000000000 = .ok (.addm 3 1 2 4) ∧
    encode (.addm 3 1 2 4) = 0x04C49000 := by decide
theorem test_decode_subm : decode 0b000010_0011_0001_0010_0100_0000000000 = .ok (.subm 3 1 2 4) ∧
    encode (.subm 3 1 2 4) = 0x08C49000 := by decide
theorem test_decode_mulm : decode 0b000011_0011_0001_0010_0100_0000000000 = .ok (.mulm 3 1 2 4) ∧
    encode (.mulm 3 1 2 4) = 0x0CC49000 := by decide
theorem test_decode_expm : decode 0b000100_0011_0001_0010_0100_0000000000 = .ok (.expm 3 1 2 4) ∧
    encode (.expm 3 1 2 4) = 0x10C49000 := by decide
theorem test_decode_invm : decode 0b000101_0011_0001_0000_0100_0000000000 = .ok (.invm 3 1 4) ∧
    encode (.invm 3 1 4) = 0x14C41000 := by decide
theorem test_decode_divm : decode 0b000110_0011_0001_0010_0100_0000000000 = .ok (.divm 3 1 2 4) ∧
    encode (.divm 3 1 2 4) = 0x18C49000 := by decide
theorem test_decode_ldc : decode 0b000111_0100_0100_0000_0000_0000000000 = .ok (.ldc 4 4) ∧
    encode (.ldc 4 4) = 0x1D100000 := by decide
theorem test_decode_padd : decode 0b010000_0100_0000_0010_0000_0000000000 = .ok (.padd 4 0 2) ∧
    encode (.padd 4 0 2) = 0x41008000 := by decide
theorem test_decode_pdbl : decode 0b010001_0110_0000_0000_0000_0000000000 = .ok (.pdbl 6 0) ∧
    encode (.pdbl 6 0) = 0x45800000 := by decide
theorem test_decode_smul : decode 0b010010_1000_0001_0000_0000_0000000000 = .ok (.smul 8 1 0) ∧
    encode (.smul 8 1 0) = 0x4A040000 := by decide
theorem test_decode_pubk : decode 0b010011_1010_0101_0000_0000_0000000000 = .ok (.pubk 10 5) ∧
    encode (.pubk 10 5) = 0x4E940000 := by decide
theorem test_decode_sign : decode 0b100000_1100_0001_0010_0000_0000000000 = .ok (.sign 12 1 2) ∧
    encode (.sign 12 1 2) = 0x83048000 := by decide
theorem test_decode_verify : decode 0b100001_0000_0001_0100_1100_0000000000 = .ok (.verify 1 4 12) ∧
    encode (.verify 1 4 12) = 0x84053000 := by decide

/-- V-ENC-1 to V-ENC-4. -/
theorem test_decode_reserved_opcode : [0x00000000, 0x20000000, 0xFC000000, 0x200003FF].all
    (fun w => decode w == .error .illegalOpcode) = true := by decide

/-- V-ENC-5 to V-ENC-20. -/
theorem test_decode_illegal_operand : [0x04C49001, 0x14C49000, 0x40C08000, 0x4100C000, 0x41008400, 0x84453000,
    0x84053400, 0x83448000, 0x1C140000, 0x45804000, 0x4E940400, 0x18C49200].all
    (fun w => decode w == .error .illegalOperand) = true := by decide

/-! ### The commands, each through the decoder at the engine's turn -/

/-- V-MOD-ADD-1; V-MOD-ADD-2 (the sum passes 2^256). -/
theorem test_addm :
    engine 0x04C49000 [(1, 0xBD), (2, 0x2B), (4, 0xB)] (fun t => t.x 3 == 1 && !t.z && t.done) = true ∧
    engine 0x04C49000 [(1, -2), (2, -2), (4, -1)] (fun t => t.x 3 == -3 && !t.z) = true := by decide +kernel
/-- V-MOD-SUB-2; V-MOD-SUB-6 (MOD_ZERO). -/
theorem test_subm : engine 0x08C49000 [(1, 0), (2, 1), (4, P)] (fun t => t.x 3 == P - 1 && !t.z) = true ∧
    engine 0x08C49000 [(1, 2), (2, 3), (3, 9)]
      (fun t => t.x 3 == 9 && t.err && t.errcode == 3 && t.done && !t.busy) = true := by decide +kernel
/-- V-MOD-MUL-4 and V-MOD-MUL-5; V-MOD-EXP-8 and V-MOD-EXP-3 (the exponent is not reduced). -/
theorem test_mulm_expm :
    engine 0x0CC49000 [(1, -1), (2, -1), (4, N)]
      (fun t => t.x 3 == 0x9D671CD581C69BC5E697F5E45BCD07C3E972508F6D0E38F00911AF2E084453C3) = true ∧
    engine 0x0CC49000 [(1, 0), (2, -1), (4, P)] (fun t => t.x 3 == 0 && t.z) = true ∧
    engine 0x10C49000 [(1, -1), (2, -1), (4, P)]
      (fun t => t.x 3 == 0xAD0A8C73022BDAA5B4E042C6846D1C3811C064B799B934145BF4AB20AA5C5FC8) = true ∧
    engine 0x10C49000 [(1, 2), (2, 10), (4, 7)] (fun t => t.x 3 == 2) = true := by decide +kernel
/-- V-MOD-INV-2 and V-MOD-INV-7 (modulus 0 is PRECONDITION); V-MOD-DIV-2 and V-MOD-DIV-3 (a divisor of 0). -/
theorem test_invm_divm :
    engine 0x14C41000 [(1, 2), (4, P)]
      (fun t => t.x 3 == 0x7FFFFFFFFFFFFFFFFFFFFFFFFFFFFFFFFFFFFFFFFFFFFFFFFFFFFFFF7FFFFE18) = true ∧
    engine 0x14C41000 [(1, 5)] (fun t => t.x 3 == 0 && t.errcode == 4 && t.err) = true ∧
    engine 0x18C49000 [(1, 1), (2, 2), (4, N)]
      (fun t => t.x 3 == 0x7FFFFFFFFFFFFFFFFFFFFFFFFFFFFFFF5D576E7357A4501DDFE92F46681B20A1) = true ∧
    engine 0x18C49000 [(1, 5), (2, 0), (4, 7)] (fun t => t.x 3 == 0 && t.z && !t.err) = true := by decide +kernel
/-- V-LDC-2; V-LDC-6. -/
theorem test_ldc : engine 0x1C440000 [] (fun t => t.x 1 == N && !t.z && t.done) = true ∧
    engine 0x1C140000 [(0, 3)] (fun t => t.x 0 == 3 && t.errcode == 2) = true := by decide +kernel
/-- V-PADD-1 and V-PADD-5 (P + (−P)); V-PDBL-1 and V-PDBL-4 (off the curve). -/
theorem test_padd_pdbl :
    engine 0x41008000 [(0, GX), (1, GY), (2, G2X), (3, G2Y)] (pairIs 4 G3X G3Y false) = true ∧
    engine 0x41008000 [(0, GX), (1, GY), (2, GX), (3, P - GY)] (pairIs 4 0 0 true) = true ∧
    engine 0x45800000 [(0, GX), (1, GY)] (pairIs 6 G2X G2Y false) = true ∧
    engine 0x45800000 [(0, 1), (1, 1)] (pairIs 6
      0x3FFFFFFFFFFFFFFFFFFFFFFFFFFFFFFFFFFFFFFFFFFFFFFFFFFFFFFFBFFFFF0C
      0x1FFFFFFFFFFFFFFFFFFFFFFFFFFFFFFFFFFFFFFFFFFFFFFFFFFFFFFFDFFFFF86 false) = true := by decide +kernel
/-- V-SMUL-2 and V-SMUL-1; V-PUBK-1 and V-SRC-3. -/
theorem test_smul_pubk : engine 0x4A080000 [(0, GX), (1, GY), (2, 3)] (pairIs 8 G3X G3Y false) = true ∧
    engine 0x4A080000 [(0, GX), (1, GY)] (pairIs 8 0 0 true) = true ∧
    engine 0x4E940000 [(5, 1)] (pairIs 10 GX GY false) = true ∧
    engine 0x4E940000 [(5, 2)] (pairIs 10 G2X G2Y false) = true := by decide +kernel

/-- The digest z1 of 95_test_vectors.md section 5. -/
def z1 : Word := 0xAFA27B44D43B02A9FEA41D13CEDC2E4016CFCF87C5DBF990E593669AA8CE286D

/-- A SIGN r12, r1, r2 in flight, digest z1, with this key and these draws at the port. -/
def signing (d : Word) (draws : List Word) : State := { inFlight 0x83048000 [(1, z1), (2, d)] with draws := draws }

/-- V-ECDSA-7 after two draws that are rejected (V-ECDSA-1); V-ECDSA-11. -/
theorem test_sign :
    after (engineTurn (signing 1 [0, N, 1, 7]))
      (fun t => pairIs 12 GX 0x2960E1C3CE17BE5654447FA99D6339485EBCEF7C4461822E7FB38968EF8FFEC4 false t
        && t.draws == [7] && !t.vres && !t.busy) = true ∧
    after (engineTurn (signing 1 [0, 0, 0])) (fun t => t == signing 1 [0, 0, 0] && t.busy) = true := by decide +kernel
/-- The signature (r, s) = (2G.x, 2G.x) of the digest 2G.x under Q = G, by 42_ecdsa.md R164: w·z = w·r = 1, so the sum
is G + G = 2G. Then V-ECDSA-4d: s = N. -/
theorem test_verify :
    engine 0x84053000 [(1, G2X), (4, GX), (5, GY), (12, G2X), (13, G2X)]
      (fun t => t.vres && !t.z && t.done && !t.err) = true ∧
    engine 0x84053000 [(1, z1), (4, GX), (5, GY), (12, GX), (13, N)]
      (fun t => !t.vres && !t.err && t.done) = true := by decide +kernel

/-! ### The window, the flags, reset and the step -/

/-- V-BUS-3. -/
theorem test_bus_errors : [0x102, 0x010, 0x0FC, 0x300, 0xFFC].all
    (fun a => (loaded []).readResponse a == .read 0 true) = true := by decide
/-- V-BUS-2, and word 0 is the most significant (V-BUS-1); V-BUS-7, ADDM in flight; V-BUS-8 and V-BUS-9, a dropped write
and the engine's turn; V-BUS-10 and V-BUS-11, write 1 to clear; V-BUS-12 and V-BUS-13. -/
theorem test_bus :
    (((loaded []).busWrite 0x13C 0xDEADBEEF).busWrite 0x120 0x00112233).x 1 =
      0x00112233000000000000000000000000000000000000000000000000DEADBEEF ∧
    (inFlight 0x04C49000 [(1, 0xBD), (2, 0x2B), (4, 0xB)]).statusWord = 1 ∧
    (inFlight 0x04C49000 [(3, 5)]).readResponse 0x17C = .read 0 false ∧
    (inFlight 0x04C49000 []).readResponse 0x00C = .read 0x04C49000 false ∧
    after (engineTurn ((inFlight 0x04C49000 [(1, 0xBD), (2, 0x2B), (4, 0xB)]).busWrite 0x17C 0x55))
      (fun t => t.statusWord == 0x22 && t.x 3 == 1) = true ∧
    (({ loaded [] with done := true, ovr := true }).busWrite 0x008 0x2).statusWord = 0x20 ∧
    (({ loaded [] with ovr := true }).busWrite 0x008 0x20).statusWord = 0 ∧
    engine 0x00000000 [] (fun t => t.statusWord == 0x106) = true ∧
    engine 0x04C49000 [] (fun t => t.statusWord == 0x306) = true := by decide +kernel
/-- 30_encoding.md R81 and 20_memory.md R57: a table word runs at the next step. 70_reset_and_hazards.md R200: a reset
of a SIGN in flight discards the draws it took. -/
theorem test_step : after (step (State.reset.withFetchWord 32 0x1C440000)) (fun t => t.x 1 == N) = true ∧
    decodeTableWord 32 0x1C440000 = some (.ldc 1 1) ∧
    after (step (pending (signing 1 [1, 2, 3]) [.reset 2])) (fun t => t == { State.reset with draws := [3] }) = true := by
  decide +kernel

/-! ### Witnesses: every obligation's hypotheses are met -/

theorem test_witness_DecodeOfEncode : (Instr.ldc 15 4).WellFormed ∧ (Instr.padd 14 0 14).WellFormed ∧
    (Instr.verify 15 14 0).WellFormed := by decide
theorem test_witness_EncodeOfDecode : decode 0x1FD00000 = .ok (.ldc 15 4) := by decide
theorem test_witness_DecoderFollowsOpcodeMap : LegalWord 0x84053000 ∧ ¬ LegalWord 0x84053400 ∧ ¬ LegalWord 0x1C140000 ∧
    decode 0x84053000 = .ok (.verify 1 4 12) := by decide
/-- Each range of reserved opcodes at its two ends. -/
theorem test_witness_ReservedOpcode : [0x00000000, 0x20000000, 0x3FFFFFFF, 0x50000000, 0x7FFFFFFF, 0x88000000,
    0xFFFFFFFF].all (fun w : BusWord => let n := (w >>> 26).toNat
      n == 0 || (8 ≤ n && n ≤ 0xF) || (0x14 ≤ n && n ≤ 0x1F) || 0x22 ≤ n) = true ∧
    (pending (loaded []) [.write 0x00C 0, .engine]).busy = false ∧
    (pending (loaded []) [.write 0x00C 0, .engine]).events = .write 0x00C 0 :: .engine :: [] := by decide
/-- A mask failure, and LDC with K = 5. -/
theorem test_witness_IllegalOperand :
    (∃ s : State, ∃ row ∈ opcodeMap, s.busy = true ∧ s.cmdlast.extractLsb' 26 6 = row.1 ∧ s.cmdlast &&& row.2.2 ≠ row.2.1) ∧
    ∃ s : State, ∃ row ∈ opcodeMap, s.busy = true ∧ s.cmdlast.extractLsb' 26 6 = row.1 ∧ row.1 = 0x07 ∧
      5 ≤ (s.cmdlast.extractLsb' 18 4).toNat :=
  ⟨⟨inFlight 0x04C49001 [], (0x01, 0x04000000, 0xFC0003FF), by decide, rfl, by decide, by decide⟩,
    ⟨inFlight 0x1C140000 [], (0x07, 0x1C000000, 0xFC03FFFF), by decide, rfl, by decide, by decide, by decide⟩⟩
/-- A command for each of the codes 0 to 4; DIVM with a reserved bit and modulus 0 has code 2 (V-ENC-20). -/
theorem test_witness_ErrorsInPriorityOrder :
    firstError (inFlight 0x20000000 []) 0x20000000 = 1 ∧ firstError (inFlight 0x18C49200 []) 0x18C49200 = 2 ∧
    firstError (inFlight 0x10C49000 []) 0x10C49000 = 3 ∧ firstError (inFlight 0x18C49000 [(4, 2)]) 0x18C49000 = 4 ∧
    firstError (inFlight 0x18C49000 [(4, 3)]) 0x18C49000 = 0 ∧ firstError (inFlight 0x10C49000 [(4, 1)]) 0x10C49000 = 0 ∧
    (inFlight 0x20000000 []).busy = true ∧ (inFlight 0x20000000 []).err = false := by decide +kernel
/-- A modulus of 1, for ADDM, SUBM, MULM and EXPM. -/
theorem test_witness_AddmSubmMulmExpmResult : (loaded [(4, 1)]).val 4 ≠ 0 ∧ (loaded [(15, -1)]).val 15 ≠ 0 := by
  simp [loaded, State.val]
/-- The least modulus, prime, with an operand that is not 0 modulo it. -/
theorem test_witness_InvmResult : 2 < (loaded [(1, 5), (4, 3)]).val 4 ∧ ((loaded [(1, 5), (4, 3)]).val 4).Prime ∧
    (loaded [(1, 5), (4, 3)]).val 1 % (loaded [(1, 5), (4, 3)]).val 4 ≠ 0 := by
  have e : (loaded [(1, 5), (4, 3)]).val 4 = 3 ∧ (loaded [(1, 5), (4, 3)]).val 1 = 5 := by
    simp [loaded, State.val, x_setX]
  rw [e.1, e.2]
  exact ⟨by decide, Nat.prime_three, by decide⟩
theorem test_witness_DivmResult : 2 < (loaded [(2, 6), (4, 3)]).val 4 ∧
    (loaded [(2, 6), (4, 3)]).val 2 % (loaded [(2, 6), (4, 3)]).val 4 = 0 := by
  simp [loaded, State.val, x_setX]
theorem test_witness_LdcResult : (4 : Fin 16).val ≤ 4 ∧ 5 ≤ (5 : Fin 16).val := by decide
theorem test_witness_ModulusChecks : (loaded []).val 4 = 0 ∧ (loaded [(4, 2)]).val 4 ≤ 2 ∧ (4 : Fin 16).val ≤ 4 :=
  ⟨rfl, by simp [loaded, State.val], by decide⟩
/-- The least prime above 2, and P. -/
theorem test_witness_ModularLaws : (Nat.Prime 3 ∧ 2 < 3 ∧ 3 < 2 ^ 256 ∧ 5 % 3 ≠ 0) ∧
    (fieldPrime.Prime ∧ 2 < fieldPrime ∧ fieldPrime < 2 ^ 256 ∧ 5 % fieldPrime ≠ 0) :=
  ⟨⟨Nat.prime_three, by decide, by decide, by decide⟩, ⟨fieldPrime_prime, by decide, by decide, by decide⟩⟩
theorem test_witness_Datapaths : (1 : Word) ≠ 0 ∧ (-1 : Word) ≠ 0 := by decide
/-- The last and the first pair: for PADD, PDBL, SMUL, PUBK, SIGN and VERIFY. -/
theorem test_witness_Pairs : IsPair 14 ∧ IsPair 0 ∧ IsPair 12 := by unfold IsPair; decide
theorem test_witness_SmulIdentities : groupOrder < 2 ^ 256 ∧ 2 ^ 256 - 1 < 2 ^ 256 := by decide

/-- G is a point of the curve. -/
theorem generator_on_curve : curve.Nonsingular generatorX generatorY := by
  have := Fact.mk fieldPrime_prime
  have e : (generatorY : ZMod fieldPrime) ^ 2 = (generatorX : ZMod fieldPrime) ^ 3 + 7 := by
    have : ((generatorY ^ 2 : Nat) : ZMod fieldPrime) = ((generatorX ^ 3 + 7 : Nat) : ZMod fieldPrime) := by
      rw [ZMod.natCast_eq_natCast_iff']
      decide
    push_cast at this
    exact this
  rw [WeierstrassCurve.Affine.nonsingular_iff, WeierstrassCurve.Affine.equation_iff]
  refine ⟨by simpa [curve] using e, .inr fun h => ?_⟩
  have h2 : ((2 * generatorY % fieldPrime : Nat) : ZMod fieldPrime) = ((0 : Nat) : ZMod fieldPrime) := by
    rw [cast_mod_fieldPrime]
    push_cast
    simp only [curve] at h
    linear_combination h
  rw [cast_eq_cast (by decide) (by decide)] at h2
  exact absurd h2 (by decide)

/-- G and O as operands, for both statements about the group. -/
theorem test_witness_GroupLaw : Fact fieldPrime.Prime ∧
    Denotes (pointAt (loaded [(0, GX), (1, GY)]) 0) (.some _ _ generator_on_curve) ∧
    Denotes (pointAt (loaded [(0, GX), (1, GY)]) 2) .zero ∧
    Denotes ⟨generatorX, generatorY⟩ (.some _ _ generator_on_curve) := by
  have e : pointAt (loaded [(0, GX), (1, GY)]) 0 = ⟨generatorX, generatorY⟩ ∧
      pointAt (loaded [(0, GX), (1, GY)]) 2 = ⟨0, 0⟩ := by decide +kernel
  rw [e.1, e.2]
  exact ⟨⟨fieldPrime_prime⟩, ⟨by decide, by decide, rfl, rfl⟩, rfl, ⟨by decide, by decide, rfl, rfl⟩⟩

/-- The draws 0 and N are rejected, whatever the digest and the key. -/
theorem nonceRejected_zero_and_order (z d : Nat) : NonceRejected z d 0 ∧ NonceRejected z d groupOrder :=
  ⟨fun _ _ h => absurd h.1 (by decide), fun _ _ h => absurd h.2.1 (by decide)⟩

/-- The nonce 1 is its own inverse: s = r·d + z. -/
theorem nonceGives_one {z d r sv : Nat} (h : r = (smul 1 generator).x % groupOrder) (hr : r ≠ 0)
    (hs : sv = (r * d + z) % groupOrder) (h0 : sv ≠ 0) : NonceGives z d 1 r sv :=
  ⟨by decide, by decide, h, hr, by rw [one_pow, mul_one, hs], h0⟩

/-- Two rejected draws and then the nonce 1, the key 1 (V-ECDSA-7). -/
theorem test_witness_SignResult : (signing 1 [0, N, 1, 7]).draws = [0, N] ++ 1 :: [7] ∧
    (∀ j ∈ [0, N], NonceRejected ((signing 1 [0, N, 1, 7]).val 1) ((signing 1 [0, N, 1, 7]).val 2) j.toNat) ∧
    NonceGives ((signing 1 [0, N, 1, 7]).val 1) ((signing 1 [0, N, 1, 7]).val 2) (1 : Word).toNat GX.toNat
      0x2960E1C3CE17BE5654447FA99D6339485EBCEF7C4461822E7FB38968EF8FFEC4 := by
  have e : GX.toNat = (smul 1 generator).x % groupOrder ∧
      0x2960E1C3CE17BE5654447FA99D6339485EBCEF7C4461822E7FB38968EF8FFEC4 =
        (GX.toNat * (signing 1 [0, N, 1, 7]).val 2 + (signing 1 [0, N, 1, 7]).val 1) % groupOrder := by decide +kernel
  refine ⟨rfl, ?_, nonceGives_one e.1 (by decide) e.2 (by decide)⟩
  simp only [List.mem_cons, List.not_mem_nil, or_false]
  rintro j (rfl | rfl)
  · exact (nonceRejected_zero_and_order _ _).1
  · exact (nonceRejected_zero_and_order _ _).2
theorem test_witness_SignWaitsForAUsableNonce : ∀ j ∈ (signing 1 [0, N]).draws,
    NonceRejected ((signing 1 [0, N]).val 1) ((signing 1 [0, N]).val 2) j.toNat := by
  rintro j hj
  rcases List.mem_cons.mp hj with rfl | hj
  · exact (nonceRejected_zero_and_order _ _).1
  · rcases List.mem_cons.mp hj with rfl | hj
    · exact (nonceRejected_zero_and_order _ _).2
    · cases hj
/-- Each of r = 0, s = 0, r = N and s = N. -/
theorem test_witness_InvalidSignatureIsFalse : (loaded [(13, 1)]).val 12 = 0 ∧ (loaded [(12, 1)]).val (12 + 1) = 0 ∧
    groupOrder ≤ (loaded [(12, N), (13, 1)]).val 12 ∧ groupOrder ≤ (loaded [(12, 1), (13, N)]).val (12 + 1) := by
  decide +kernel

/-- The signature of V-ECDSA-7, the key's public point loaded beside it. -/
def signed : State := nextOf (exec (.sign 12 1 2) (signing 1 [1]))

theorem test_witness_SignThenVerify : IsPair 12 ∧ IsPair 4 ∧ (signing 1 [1]).busy = true ∧
    exec (.sign 12 1 2) (signing 1 [1]) = .next signed ∧ signed.busy = false ∧
    (signed.setPair 4 generatorX generatorY).val 1 = (signing 1 [1]).val 1 ∧
    (signed.setPair 4 generatorX generatorY).val 4 = (smul ((signing 1 [1]).val 2) generator).x ∧
    (signed.setPair 4 generatorX generatorY).val (4 + 1) = (smul ((signing 1 [1]).val 2) generator).y ∧
    (signed.setPair 4 generatorX generatorY).val 12 = signed.val 12 ∧
    (signed.setPair 4 generatorX generatorY).val (12 + 1) = signed.val (12 + 1) := by
  refine ⟨by unfold IsPair; decide, by unfold IsPair; decide, rfl, ?_, ?_⟩
  · obtain ⟨t, h, -⟩ := exec_effect (.sign 12 1 2) (signing 1 [1])
    rw [signed, h, nextOf]
  · decide +kernel

/-- Idle and busy states with a transaction pending. -/
def idleDoing (e : List Event) : State := pending (loaded [(15, -1)]) e
def busyDoing (e : List Event) : State := pending (inFlight 0x04C49000 [(4, 7)]) e

/-- A read or a write of any address, idle and busy. -/
theorem test_witness_transactions (a : BusAddr) (v : BusWord) :
    (idleDoing [.read a]).events = .read a :: [] ∧ (idleDoing [.read a]).busy = false ∧
    (idleDoing [.write a v]).events = .write a v :: [] ∧ (idleDoing [.write a v]).busy = false ∧
    (busyDoing [.read a]).events = .read a :: [] ∧ (busyDoing [.read a]).busy = true ∧
    (busyDoing [.write a v]).events = .write a v :: [] ∧ (busyDoing [.write a v]).busy = true :=
  ⟨rfl, rfl, rfl, rfl, rfl, rfl, rfl, rfl⟩
/-- With the transactions above: the first and the last word of the window. -/
theorem test_witness_WindowReadsAndWrites : wordAddr 0 0 = 0x100 ∧ wordAddr 15 7 = 0x2FC := by decide
/-- With the transactions above: each clause's addresses at their ends. -/
theorem test_witness_BusyWindowReadsZero :
    ([0x100, 0x2FC].all fun a : BusAddr => 0x100 ≤ a.toNat && a.toNat ≤ 0x2FF && a.toNat % 4 == 0) = true ∧
    ([0x000, 0x004, 0x008, 0x00C].all fun a : BusAddr => a.toNat ≤ 0x00C && a.toNat % 4 == 0) = true := by decide
/-- With the transactions above: each clause's addresses at their ends. -/
theorem test_witness_BusErrorsChangeNothing : ([0x001, 0x102, 0x010, 0x0FF, 0x300, 0xFFF].all fun a : BusAddr =>
    a.toNat % 4 != 0 || (0x010 ≤ a.toNat && a.toNat ≤ 0x0FF) || (0x300 ≤ a.toNat && a.toNat ≤ 0xFFF)) = true := by decide
/-- With the transactions above: each clause's addresses at their ends. -/
theorem test_witness_BusyWritesAreDropped : (0x00C : BusAddr).toNat = 0x00C ∧ (0x004 : BusAddr).toNat = 0x004 ∧
    (0x008 : BusAddr).toNat = 0x008 ∧
    ([0x100, 0x2FC].all fun a : BusAddr => 0x100 ≤ a.toNat && a.toNat ≤ 0x2FF && a.toNat % 4 == 0) = true := by decide

/-- Every step of the machine answers some next state, so a hypothesis `step s = .next t` is met. -/
theorem step_nextOf (s : State) : step s = .next (nextOf (step s)) := by
  obtain ⟨t, h⟩ := step_next s
  rw [h, nextOf]

theorem test_witness_ReadsAreHarmlessAndWritesIdempotent :
    (∃ s t : State, s.events = .read 0x100 :: ([0x104, 0x003].map .read ++ .read 0x100 :: []) ∧ step s = .next t) ∧
    (∃ s t : State, (0x100 : BusAddr).toNat ≠ 0x00C ∧ s.events = .write 0x100 1 :: .write 0x100 1 :: [] ∧ step s = .next t) ∧
    ∃ s t : State, s.busy = false ∧ s.ovr = false ∧ s.events = .write 0x00C 1 :: .write 0x00C 1 :: [] ∧ step s = .next t :=
  ⟨⟨idleDoing [.read 0x100, .read 0x104, .read 0x003, .read 0x100], _, rfl, step_nextOf _⟩,
    ⟨idleDoing [.write 0x100 1, .write 0x100 1], _, by decide, rfl, step_nextOf _⟩,
    ⟨idleDoing [.write 0x00C 1, .write 0x00C 1], _, rfl, rfl, rfl, step_nextOf _⟩⟩
/-- A read and a dropped write before the engine's turn, for both statements about a command in flight. -/
theorem test_witness_InFlight : (∀ e ∈ [Event.read 0x180, .write 0x180 9], IsHostEvent e) ∧
    (busyDoing [.read 0x180, .write 0x180 9, .engine]).events = [.read 0x180, .write 0x180 9] ++ .engine :: [] ∧
    (busyDoing [.read 0x180, .write 0x180 9, .engine]).busy = true ∧ decode (busyDoing []).cmdlast = .ok (.addm 3 1 2 4) := by
  refine ⟨?_, rfl, rfl, by decide⟩
  simp only [List.mem_cons, List.not_mem_nil, or_false]
  rintro e (rfl | rfl) <;> trivial
theorem test_witness_CommandThroughTheBus : (idleDoing [.write 0x00C 0x04C49000, .engine]).busy = false ∧
    decode 0x04C49000 = .ok (.addm 3 1 2 4) ∧
    (idleDoing [.write 0x00C 0x04C49000, .engine]).events = .write 0x00C 0x04C49000 :: .engine :: [] :=
  ⟨rfl, by decide, rfl⟩
theorem test_witness_StepRunsTheDecodedCommand : (busyDoing []).busy = true ∧ (busyDoing []).events = [] ∧
    decode (busyDoing []).cmdlast = .ok (.addm 3 1 2 4) ∧ (busyDoing [.engine]).events = .engine :: [] ∧
    (idleDoing [.engine]).busy = false ∧ (idleDoing [.engine]).events = .engine :: [] ∧
    decodeTableWord 32 0x04C49000 = some (.addm 3 1 2 4) :=
  ⟨rfl, rfl, by decide, rfl, rfl, rfl, by decide⟩

/-- A legal state that is not the reset state: a command in flight and a write that will be dropped. -/
theorem busyDoing_legal (e : List Event) : (busyDoing e).Legal :=
  ⟨fun _ => rfl, by simp [busyDoing, inFlight, pending], by simp [busyDoing, inFlight, pending], fun _ => rfl,
    by simp [busyDoing, inFlight, pending]⟩
theorem test_witness_StepKeepsLegal : ∃ s t : State, s.Legal ∧ step s = .next t ∧ s ≠ State.reset :=
  ⟨busyDoing [.write 0x100 1], _, busyDoing_legal _, step_nextOf _,
    fun h => nomatch (congrArg State.busy h : true = false)⟩
/-- No SIGN in flight, and a SIGN that had taken two draws. -/
theorem test_witness_ResetSetsEveryField : (busyDoing [.reset 0]).events = .reset 0 :: [] ∧
    (¬ ((busyDoing [.reset 0]).busy = true ∧ ∃ rd ra rb, decode (busyDoing [.reset 0]).cmdlast = .ok (.sign rd ra rb))) ∧
    (pending (signing 1 [1, 2, 3]) [.reset 2]).events = .reset 2 :: [] ∧
    (pending (signing 1 [1, 2, 3]) [.reset 2]).busy = true ∧
    ∃ rd ra rb, decode (pending (signing 1 [1, 2, 3]) [.reset 2]).cmdlast = .ok (.sign rd ra rb) := by
  have e : decode 0x04C49000 = .ok (.addm 3 1 2 4) := by decide
  refine ⟨rfl, ?_, rfl, rfl, 12, 1, 2, by decide⟩
  rintro ⟨-, rd, ra, rb, h⟩
  cases e.symm.trans h
/-- A command ended by its engine turn, and one ended by a reset. -/
theorem test_witness_OnlyResetStopsACommand : ∀ e ∈ [Event.engine, .reset 3],
    (busyDoing [e]).busy = true ∧ step (busyDoing [e]) = .next (nextOf (step (busyDoing [e]))) ∧
    (nextOf (step (busyDoing [e]))).busy = false := by
  intro e he
  refine ⟨rfl, step_nextOf _, ?_⟩
  revert e
  decide +kernel
theorem test_witness_CommandFrame : ∃ t : State, exec (.verify 1 4 12) (busyDoing []) = .next t ∧
    (0 : Reg) ∉ destinations (.verify 1 4 12) ∧ (Instr.verify 1 4 12).opcode ≠ .sign ∧
    (Instr.addm 3 1 2 4).opcode ≠ .verify :=
  ⟨_, rfl, by decide, by decide, by decide⟩
theorem test_witness_EveryCommandEnds : (busyDoing []).busy = true ∧ (signing 1 [0, N]).busy = true := ⟨rfl, rfl⟩
/-- A success and an error. -/
theorem test_witness_ZeroFlagRule : (Instr.addm 3 1 2 4).WellFormed ∧ (busyDoing []).busy = true ∧
    (busyDoing []).err = false ∧ (exec (.addm 3 1 2 4) (busyDoing []) = .next (nextOf (exec (.addm 3 1 2 4) (busyDoing [])))) ∧
    (nextOf (exec (.addm 3 1 2 4) (busyDoing []))).err = false ∧ (nextOf (exec (.addm 3 1 2 5) (busyDoing []))).err = true ∧
    (∃ s t : State, s.busy = false ∧ s.events = .write 0x00C 5 :: [] ∧ step s = .next t) :=
  ⟨by decide, rfl, rfl, rfl, by decide +kernel, by decide +kernel,
    ⟨idleDoing [.write 0x00C 5], _, rfl, rfl, step_nextOf _⟩⟩
theorem test_witness_VerifyResultFlagRule :
    (∃ s t : State, s.busy = false ∧ s.events = .write 0x00C 0x84053000 :: [] ∧ step s = .next t) ∧
    ∃ s t : State, s.busy = true ∧ s.vres = false ∧ engineTurn s = .next t ∧ s.lastIsVerify :=
  ⟨⟨idleDoing [.write 0x00C 0x84053000], _, rfl, rfl, step_nextOf _⟩,
    ⟨inFlight 0x84053000 [], _, rfl, rfl, rfl, 1, 4, 12, by decide⟩⟩
/-- A dropped write sets OVR; a write of bit 5 to STATUS clears it. -/
theorem test_witness_OverrunFlagRule :
    (∃ s t : State, engineTurn s = .next t) ∧
    (∃ s t : State, step s = .next t ∧ s.ovr = false ∧ t.ovr = true) ∧
    ∃ s t : State, step s = .next t ∧ s.ovr = true ∧ t.ovr = false :=
  ⟨⟨idleDoing [], _, rfl⟩, ⟨busyDoing [.write 0x00C 0], _, step_nextOf _, rfl, by decide +kernel⟩,
    ⟨{ idleDoing [.write 0x008 0x20] with ovr := true }, _, step_nextOf _, rfl, by decide +kernel⟩⟩
/-- The bounds of the moduli, and a command of each check that succeeds. -/
theorem test_witness_ModularResultsAreReduced : 0 < 1 ∧ 2 ^ 256 - 1 < 2 ^ 256 ∧
    exec (.addm 3 1 2 4) (busyDoing []) = .next (nextOf (exec (.addm 3 1 2 4) (busyDoing []))) ∧
    (nextOf (exec (.addm 3 1 2 4) (busyDoing []))).err = false ∧
    exec (.invm 3 1 4) (busyDoing []) = .next (nextOf (exec (.invm 3 1 4) (busyDoing []))) ∧
    (nextOf (exec (.invm 3 1 4) (busyDoing []))).err = false :=
  ⟨by decide, by decide, rfl, by decide +kernel, rfl, by decide +kernel⟩
/-- `irq` rises at a completion, and falls by the host's write. -/
theorem test_witness_InterruptRule :
    (∃ s t : State, step s = .next t ∧ s.irq = false ∧ t.irq = true) ∧
    ∃ s t : State, step s = .next t ∧ s.irq = true ∧ t.irq = false :=
  ⟨⟨{ busyDoing [.engine] with irqen := true }, _, step_nextOf _, rfl, by decide +kernel⟩,
    ⟨{ idleDoing [.write 0x008 0x2] with irqen := true, done := true }, _, step_nextOf _, rfl, by decide +kernel⟩⟩

end Sys2Proof.Tests
end

section
/-! PROOFS. The statements of 10_state.md: the legal values of STATUS, what the control registers read as, the frame of a
command, and what writes each of Z, VRES, OVR and irq. -/

namespace Sys2Proof.Machine

open Sys2Proof.Claims

/-! ### What an engine turn and a command write do -/

/-- An engine turn that executes, raises a decoding error or idles leaves OVR (10_state.md R37). -/
theorem engineTurn_ovr {s t : State} (h : engineTurn s = .next t) : t.ovr = s.ovr := by
  rcases engineTurn_cases h with ⟨-, rfl⟩ | ⟨-, i, -, hx⟩ | ⟨-, e, -, rfl⟩
  · rfl
  · exact (effect_of_exec hx).outside.1
  · rfl

/-- And it leaves CTRL (10_state.md R27). -/
theorem engineTurn_irqen {s t : State} (h : engineTurn s = .next t) : t.irqen = s.irqen := by
  rcases engineTurn_cases h with ⟨-, rfl⟩ | ⟨-, i, -, hx⟩ | ⟨-, e, -, rfl⟩
  · rfl
  · obtain ⟨-, hi, -⟩ := (effect_of_exec hx).outside
    exact hi
  · rfl

/-- A command in flight completes, or (a SIGN still waiting) changes nothing (60_exceptions.md R183). -/
theorem Effect.waits_or_completes {i : Instr} {s t : State} (h : Effect i s t) :
    t = s ∨ (t.busy = false ∧ t.done = true) := by
  cases h with
  | waiting rd ra rb hi hs h => exact .inl h
  | scalar rd v h => exact .inr (h ▸ ⟨rfl, rfl⟩)
  | point rd p h => exact .inr (h ▸ ⟨rfl, rfl⟩)
  | signature rd ra rb rs rest hi hs h => exact .inr (h ▸ ⟨rfl, rfl⟩)
  | verdict ra rb rm hi h => exact .inr (h ▸ ⟨rfl, rfl⟩)
  | error e h => exact .inr (h ▸ ⟨rfl, rfl⟩)

/-- An engine turn changes nothing, or completes the command in flight (60_exceptions.md R185). -/
theorem engineTurn_stays_or_completes {s t : State} (h : engineTurn s = .next t) :
    t = s ∨ (s.busy = true ∧ t.busy = false ∧ t.done = true) := by
  rcases engineTurn_cases h with ⟨-, rfl⟩ | ⟨hb, i, -, hx⟩ | ⟨hb, e, -, rfl⟩
  · exact .inl rfl
  · exact (effect_of_exec hx).waits_or_completes.imp_right (⟨hb, ·⟩)
  · exact .inr ⟨hb, rfl, rfl⟩

/-- The addresses of the writes that touch a flag (20_memory.md R51). -/
theorem busTarget_ctrl_iff {a : BusAddr} : busTarget a = .ctrl ↔ a = 0x004 := busTarget_eq_control.2.1

theorem busTarget_status_iff {a : BusAddr} : busTarget a = .status ↔ a = 0x008 := busTarget_eq_control.2.2.1

theorem busTarget_cmd_iff {a : BusAddr} : busTarget a = .cmd ↔ a = 0x00C := busTarget_eq_control.2.2.2

/-- A step on a CMD write while idle is an acceptance (20_memory.md R57). -/
theorem step_cmdWrite {s : State} {w : BusWord} {rest : List Event} (hb : s.busy = false)
    (h : s.events = .write 0x00C w :: rest) :
    step s = .next (((s.setEvents rest).accept w).respond (.write false)) := by
  rw [step_write h, busWrite_cmd _ _ (busTarget_cmd_iff.mpr rfl), writeCmd_idle (s := s.setEvents rest) hb]

/-! ### The legal values of STATUS (10_state.md R25, R36) -/

namespace State.Legal

variable {s t : State}

/-- A state with ERR and ERRCODE clear is legal once BUSY excludes DONE and VRES comes from a VERIFY. -/
theorem of_no_error (hd : t.busy = true → t.done = false) (he : t.err = false) (hc : t.errcode = 0)
    (hv : t.vres = true → t.busy = false ∧ t.lastIsVerify) : t.Legal where
  busy_excludes_done := hd
  err_iff_errcode := by simp [he, hc]
  errcode_le_four := by simp [hc]
  busy_excludes_err _ := he
  vres_from_verify h := ⟨(hv h).1, he, (hv h).2⟩

/-- Legality reads only BUSY, DONE, ERR, ERRCODE, VRES and CMDLAST, and clearing DONE keeps it. -/
theorem of_same_status (h : s.Legal) (busy : t.busy = s.busy) (done : t.done = true → s.done = true)
    (err : t.err = s.err) (errcode : t.errcode = s.errcode) (vres : t.vres = s.vres)
    (cmdlast : t.cmdlast = s.cmdlast) : t.Legal where
  busy_excludes_done hb := by
    have := h.busy_excludes_done (busy ▸ hb)
    cases hd : t.done
    · rfl
    · rw [done hd] at this; exact this
  err_iff_errcode := by rw [err, errcode]; exact h.err_iff_errcode
  errcode_le_four := by rw [errcode]; exact h.errcode_le_four
  busy_excludes_err := by rw [busy, err]; exact h.busy_excludes_err
  vres_from_verify := by
    rw [vres, busy, err, State.lastIsVerify, cmdlast]
    exact h.vres_from_verify

/-- VRES is 0 while a command is in flight (10_state.md R36). -/
theorem vres_of_busy (h : s.Legal) (hb : s.busy = true) : s.vres = false := by
  cases hv : s.vres
  · rfl
  · rw [(h.vres_from_verify hv).1] at hb; cases hb

end State.Legal

theorem accept_legal (s : State) (w : BusWord) : (s.accept w).Legal :=
  .of_no_error (fun _ => rfl) rfl rfl nofun

theorem reset_legal (events : List Event) (draws : List Word) :
    State.Legal { State.reset with events := events, draws := draws } :=
  .of_no_error nofun rfl rfl nofun

/-- The error codes are 1 to 4, so ERR and ERRCODE are set together (60_exceptions.md R180, R181). -/
theorem raise_legal {s : State} (hv : s.vres = false) (e : ErrorCode) : (s.raise e).Legal where
  busy_excludes_done := nofun
  err_iff_errcode := by cases e <;> simp [ErrorCode.code]
  errcode_le_four := by cases e <;> simp [ErrorCode.code]
  busy_excludes_err := nofun
  vres_from_verify h := by simp [hv] at h

/-- A command run in flight keeps the state legal: only a VERIFY's verdict can leave VRES set. -/
theorem Effect.legal {i : Instr} {s t : State} (h : Effect i s t) (hs : s.Legal) (hb : s.busy = true)
    (hd : decode s.cmdlast = .ok i) : t.Legal := by
  have hv := hs.vres_of_busy hb
  cases h with
  | scalar rd v h => subst h; exact .of_no_error nofun rfl rfl (by simp [hv])
  | point rd p h => subst h; exact .of_no_error nofun rfl rfl (by simp [hv])
  | signature rd ra rb rs rest hi hw h => subst h; exact .of_no_error nofun rfl rfl (by simp [hv])
  | waiting rd ra rb hi hw h => exact h ▸ hs
  | verdict ra rb rm hi h =>
    subst h
    exact .of_no_error nofun rfl rfl fun _ => ⟨rfl, ra, rb, rm, hi ▸ hd⟩
  | error e h => exact h ▸ raise_legal hv e

theorem engineTurn_legal {s t : State} (hs : s.Legal) (h : engineTurn s = .next t) : t.Legal := by
  rcases engineTurn_cases h with ⟨-, rfl⟩ | ⟨hb, i, hd, hx⟩ | ⟨hb, e, -, rfl⟩
  · exact hs
  · exact (effect_of_exec hx).legal hs hb hd
  · exact raise_legal (hs.vres_of_busy hb) _

theorem setEvents_legal {s : State} (hs : s.Legal) (l : List Event) : (s.setEvents l).Legal :=
  hs.of_same_status rfl id rfl rfl rfl rfl

theorem busWrite_legal {s : State} (hs : s.Legal) (a : BusAddr) (v : BusWord) : (s.busWrite a v).Legal := by
  have key : (s.writeEffect a v).Legal := by
    rcases writeEffect_cases s a v with
      ⟨-, e⟩ | ⟨-, e⟩ | ⟨-, e⟩ | ⟨-, -, e⟩ | ⟨i, k, -, -, e⟩ | ⟨-, -, e⟩ <;> rw [e]
    · exact hs
    · exact hs.of_same_status rfl id rfl rfl rfl rfl
    · exact hs.of_same_status rfl (fun h => (Bool.and_eq_true_iff.mp h).1) rfl rfl rfl rfl
    · exact accept_legal s v
    · exact hs.of_same_status rfl id rfl rfl rfl rfl
    · exact hs.of_same_status rfl id rfl rfl rfl rfl
  exact key.of_same_status rfl id rfl rfl rfl rfl

/-- Settles O42: each kind of event keeps the legal values of STATUS. -/
theorem stepKeepsLegal : Obligations.StepKeepsLegal := by
  intro s t hs h
  rcases step_cases h with ⟨-, he⟩ | ⟨a, rest, -, rfl⟩ | ⟨a, v, rest, -, rfl⟩ | ⟨rest, -, he⟩ | ⟨n, rest, -, rfl⟩
  · exact engineTurn_legal hs he
  · exact hs.of_same_status rfl id rfl rfl rfl rfl
  · exact busWrite_legal (setEvents_legal hs rest) a v
  · exact engineTurn_legal (setEvents_legal hs rest) he
  · exact reset_legal _ _

/-- Settles O43: every flag is clear, and no field of the invariant reads the events or the draws. -/
theorem resetIsLegal : Obligations.ResetIsLegal := ⟨reset_legal [] [], reset_legal⟩

/-! ### What ID, CTRL, STATUS and CMD read as (10_state.md R24 to R28) -/

theorem readResponse_id (s : State) : s.readResponse 0x000 = .read idValue false := rfl
theorem readResponse_ctrl (s : State) : s.readResponse 0x004 = .read s.ctrlWord false := rfl
theorem readResponse_status (s : State) : s.readResponse 0x008 = .read s.statusWord false := rfl
theorem readResponse_cmd (s : State) : s.readResponse 0x00C = .read s.cmdlast false := rfl

theorem toNat_append_eq_add {m n : Nat} (x : BitVec m) (y : BitVec n) :
    (x ++ y).toNat = x.toNat * 2 ^ n + y.toNat := by
  rw [BitVec.toNat_append, ← Nat.shiftLeft_add_eq_or_of_lt y.isLt, Nat.shiftLeft_eq]

theorem ctrlWord_toNat (s : State) : s.ctrlWord.toNat = s.irqen.toNat := by
  simp only [State.ctrlWord, toNat_append_eq_add, BitVec.toNat_ofBool, BitVec.ofNat_eq_ofNat, BitVec.toNat_ofNat]
  omega

theorem statusWord_toNat (s : State) : s.statusWord.toNat =
    s.busy.toNat + 2 * s.done.toNat + 4 * s.err.toNat + 8 * s.z.toNat + 16 * s.vres.toNat + 32 * s.ovr.toNat
      + 256 * s.errcode.toNat := by
  simp only [State.statusWord, toNat_append_eq_add, BitVec.toNat_ofBool, BitVec.ofNat_eq_ofNat, BitVec.toNat_ofNat]
  omega

theorem ctrlWord_getLsbD_zero (s : State) : s.ctrlWord.getLsbD 0 = s.irqen := by
  simp only [State.ctrlWord, BitVec.getLsbD_append]
  simp

theorem statusWord_getLsbD_one (s : State) : s.statusWord.getLsbD 1 = s.done := by
  simp only [State.statusWord, BitVec.getLsbD_append]
  simp

/-- Settles O32: each address reads its own word, whose value is the sum of its fields. -/
theorem controlRegisterReads : Obligations.ControlRegisterReads := by
  intro s rest
  refine ⟨fun h => ?_, fun h => ⟨s.ctrlWord, ?_, ctrlWord_toNat s⟩,
    fun h => ⟨s.statusWord, ?_, statusWord_toNat s⟩, fun h => ?_⟩ <;> rw [step_read h, State.busRead]
  · rw [readResponse_id, idValue]
  · rw [readResponse_ctrl]; rfl
  · rw [readResponse_status]; rfl
  · rw [readResponse_cmd]; rfl

/-! ### What a command leaves in the registers it names -/

/-- `Effect` again, with the destination a command names (30_encoding.md R72) and the size of what it writes there. -/
inductive NamedEffect (i : Instr) (s t : State) : Prop where
  /-- A scalar result that fits the one destination. -/
  | scalar (rd : Reg) (v : Nat) (hd : destinations i = [rd]) (ho : i.opcode ≠ .sign ∧ i.opcode ≠ .verify)
      (hv : v < 2 ^ 256) (h : t = s.finishScalar rd v)
  /-- A reduced point in the destination pair. -/
  | point (rd : Reg) (p : Point) (hd : destinations i = [rd, pairY rd])
      (ho : i.opcode ≠ .sign ∧ i.opcode ≠ .verify) (hp : p.Reduced) (h : t = s.finishPoint rd p)
  /-- A signature in the destination pair. -/
  | signature (rd : Reg) (r sv : Nat) (rest : List Word) (hd : destinations i = [rd, pairY rd])
      (ho : i.opcode = .sign) (h : t = s.finishSignature rd r sv rest)
  /-- A SIGN still waiting. -/
  | waiting (ho : i.opcode = .sign) (h : t = s)
  /-- A verify result. -/
  | verdict (v : Bool) (ho : i.opcode = .verify) (h : t = s.finishVerdict v)
  /-- An error. -/
  | error (e : ErrorCode) (h : t = s.raise e)

section ModulusCheck

variable {i : Instr} {s : State} {rd rm : Reg} {v : Nat} (hd : destinations i = [rd])
  (ho : i.opcode ≠ .sign ∧ i.opcode ≠ .verify) (hv : 0 < s.val rm → v < s.val rm)
include hd ho hv

theorem namedEffect_checkedModZero : NamedEffect i s (s.checkedModZero rd rm v) := by
  rcases checkedModZero_cases s rd rm v with ⟨-, e⟩ | ⟨h0, e⟩
  · exact .error .modZero e
  · exact .scalar rd v hd ho ((hv (Nat.pos_of_ne_zero h0)).trans (val_lt s rm)) e

theorem namedEffect_checkedPrecondition : NamedEffect i s (s.checkedPrecondition rd rm v) := by
  rcases checkedPrecondition_cases s rd rm v with ⟨-, e⟩ | ⟨h2, e⟩
  · exact .error .precondition e
  · exact .scalar rd v hd ho ((hv (by omega)).trans (val_lt s rm)) e

end ModulusCheck

theorem namedEffect_of_exec {i : Instr} {s t : State} (h : exec i s = .next t) : NamedEffect i s t := by
  cases i with
  | addm => cases h; exact namedEffect_checkedModZero rfl ⟨nofun, nofun⟩ (addM_lt _ _)
  | subm => cases h; exact namedEffect_checkedModZero rfl ⟨nofun, nofun⟩ (subM_lt _ _)
  | mulm => cases h; exact namedEffect_checkedModZero rfl ⟨nofun, nofun⟩ (mulM_lt _ _)
  | expm => cases h; exact namedEffect_checkedModZero rfl ⟨nofun, nofun⟩ (expM_lt _ _)
  | invm => cases h; exact namedEffect_checkedPrecondition rfl ⟨nofun, nofun⟩ (invM_lt _)
  | divm => cases h; exact namedEffect_checkedPrecondition rfl ⟨nofun, nofun⟩ (divM_lt _ _)
  | ldc rd k =>
    simp only [exec, execLdc] at h
    split at h
    · next v _ => cases h; exact .scalar rd v.toNat rfl ⟨nofun, nofun⟩ v.isLt rfl
    · cases h; exact .error .illegalOperand rfl
  | padd rd ra rb =>
    cases h
    exact .point rd _ rfl ⟨nofun, nofun⟩ (padd_reduced (reducePoint_reduced _ _) (reducePoint_reduced _ _)) rfl
  | pdbl rd ra => cases h; exact .point rd _ rfl ⟨nofun, nofun⟩ (pdbl_reduced _) rfl
  | smul rd ra rb => cases h; exact .point rd _ rfl ⟨nofun, nofun⟩ (smul_reduced _ _) rfl
  | pubk rd ra => cases h; exact .point rd _ rfl ⟨nofun, nofun⟩ (smul_reduced _ _) rfl
  | sign rd ra rb =>
    simp only [exec, execSign] at h
    split at h
    · next rs rest _ => cases h; exact .signature rd rs.1 rs.2 rest rfl rfl rfl
    · cases h; exact .waiting rfl rfl
  | verify ra rb rm => cases h; exact .verdict _ rfl rfl

/-- A result that fits a register is 0 exactly when the register reads 0. -/
theorem ofNat_eq_zero_iff {v : Nat} (hv : v < 2 ^ 256) : BitVec.ofNat 256 v = 0#256 ↔ v = 0 := by
  rw [← BitVec.toNat_inj, BitVec.toNat_ofNat, Nat.mod_eq_of_lt hv]
  rfl

namespace NamedEffect

variable {i : Instr} {s t : State} (h : NamedEffect i s t)
include h

/-- Only the destination changes (10_state.md R21). -/
theorem x_of_not_mem {r : Reg} (hr : r ∉ destinations i) : t.x r = s.x r := by
  cases h with
  | scalar rd v hd ho hv h => subst h; simp_all
  | point rd p hd ho hp h => subst h; simp_all
  | signature rd a b rest hd ho h => subst h; simp_all
  | waiting ho h => rw [h]
  | verdict v ho h => rw [h]; rfl
  | error e h => rw [h]; rfl

/-- Only SIGN draws (10_state.md R33). -/
theorem draws_of_ne_sign (hn : i.opcode ≠ .sign) : t.draws = s.draws := by
  cases h with
  | signature rd a b rest hd ho h => exact absurd ho hn
  | waiting ho h => rw [h]
  | scalar rd v hd ho hv h => rw [h]; rfl
  | point rd p hd ho hp h => rw [h]; rfl
  | verdict v ho h => rw [h]; rfl
  | error e h => rw [h]; rfl

/-- Only VERIFY writes VRES (10_state.md R36). -/
theorem vres_of_ne_verify (hn : i.opcode ≠ .verify) : t.vres = s.vres := by
  cases h with
  | verdict v ho h => exact absurd ho hn
  | scalar rd v hd ho hv h => rw [h]; rfl
  | point rd p hd ho hp h => rw [h]; rfl
  | signature rd a b rest hd ho h => rw [h]; rfl
  | waiting ho h => rw [h]
  | error e h => rw [h]; rfl

/-- SIGN and VERIFY leave Z (10_state.md R29). -/
theorem z_of_ecdsa (ho : i.opcode = .sign ∨ i.opcode = .verify) : t.z = s.z := by
  cases h with
  | scalar rd v hd hn hv h => exact absurd ho (not_or.mpr hn)
  | point rd p hd hn hp h => exact absurd ho (not_or.mpr hn)
  | signature rd a b rest hd ho h => rw [h]; rfl
  | waiting ho h => rw [h]
  | verdict v ho h => rw [h]; rfl
  | error e h => rw [h]; rfl

/-- Z of a scalar command that succeeds tells whether its result is 0 (10_state.md R29). -/
theorem z_iff_scalar {rd : Reg} (hd : destinations i = [rd]) (hn : i.opcode ≠ .sign ∧ i.opcode ≠ .verify)
    (he : t.err = false) : t.z = true ↔ t.x rd = 0 := by
  cases h with
  | scalar rd' v hd' ho hv h =>
    obtain rfl : rd' = rd := by simpa [hd] using hd'.symm
    subst h
    simp [zeroFlag, ofNat_eq_zero_iff hv]
  | point rd' p hd' ho hp h => simp [hd] at hd'
  | signature rd' a b rest hd' ho h => exact absurd ho hn.1
  | waiting ho h => exact absurd ho hn.1
  | verdict v ho h => exact absurd ho hn.2
  | error e h => subst h; cases he

/-- Z of a point command that succeeds tells whether its result is the identity (10_state.md R29). -/
theorem z_iff_point {rd : Reg} (hd : destinations i = [rd, pairY rd])
    (hn : i.opcode ≠ .sign ∧ i.opcode ≠ .verify) (he : t.err = false) :
    t.z = true ↔ t.x rd = 0 ∧ t.x (pairY rd) = 0 := by
  cases h with
  | scalar rd' v hd' ho hv h => simp [hd] at hd'
  | point rd' p hd' ho hp h =>
    obtain ⟨rfl, -⟩ : rd' = rd ∧ pairY rd' = pairY rd := by simpa [hd] using hd'.symm
    obtain ⟨hx, hy⟩ := hp.lt_word
    subst h
    simp [identityFlag, isId, ofNat_eq_zero_iff hx, ofNat_eq_zero_iff hy]
  | signature rd' a b rest hd' ho h => exact absurd ho hn.1
  | waiting ho h => exact absurd ho hn.1
  | verdict v ho h => exact absurd ho hn.2
  | error e h => subst h; cases he

/-- A command that ends with an error leaves Z (10_state.md R29; 60_exceptions.md R181). -/
theorem z_of_err (he : t.err = true) : t.z = s.z := by
  cases h with
  | scalar rd v hd hn hv h => subst h; cases he
  | point rd p hd hn hp h => subst h; cases he
  | signature rd a b rest hd ho h => rw [h]; rfl
  | waiting ho h => rw [h]
  | verdict v ho h => rw [h]; rfl
  | error e h => rw [h]; rfl

end NamedEffect

/-- Settles O46, by the effect of the command in the registers it names. -/
theorem commandFrame : Obligations.CommandFrame := by
  intro i s t h
  have hn := namedEffect_of_exec h
  obtain ⟨ho, hi, hc, he, hr⟩ := (effect_of_exec h).outside
  exact ⟨fun r hr => hn.x_of_not_mem hr, ho, hi, hc, he, hr, hn.draws_of_ne_sign, hn.vres_of_ne_verify,
    hn.z_of_ecdsa⟩

/-! ### Z (10_state.md R29) -/

theorem engineTurn_z_of_err {s t : State} (h : engineTurn s = .next t) (he : t.err = true) : t.z = s.z := by
  rcases engineTurn_cases h with ⟨-, rfl⟩ | ⟨-, i, -, hx⟩ | ⟨-, e, -, rfl⟩
  · rfl
  · exact (namedEffect_of_exec hx).z_of_err he
  · rfl

/-- Settles O48, by the effect of the command; the 256-bit result is 0 exactly when the value is, since it fits. -/
theorem zeroFlagRule : Obligations.ZeroFlagRule := by
  refine ⟨fun s t _ _ h he => engineTurn_z_of_err h he, ?_, ?_, ?_, rfl⟩
  · intro i s t _ _ _ h he rd ra rb rm k
    have hn := namedEffect_of_exec h
    simp only [List.mem_cons, List.not_mem_nil, or_false]
    refine ⟨fun hi => hn.z_iff_scalar ?_ ?_ he, fun hi => hn.z_iff_point ?_ ?_ he, fun hi => hn.z_of_ecdsa ?_⟩
    · rcases hi with rfl | rfl | rfl | rfl | rfl | rfl | rfl <;> rfl
    · rcases hi with rfl | rfl | rfl | rfl | rfl | rfl | rfl <;> exact ⟨nofun, nofun⟩
    · rcases hi with rfl | rfl | rfl | rfl <;> rfl
    · rcases hi with rfl | rfl | rfl | rfl <;> exact ⟨nofun, nofun⟩
    · rcases hi with rfl | rfl
      · exact .inl rfl
      · exact .inr rfl
  · intro s t w rest hb hw h
    cases (step_cmdWrite hb hw).symm.trans h
    rfl
  · intro s t n rest hr h
    cases (step_reset hr).symm.trans h
    rfl

/-! ### VRES (10_state.md R36) -/

/-- `verify` is the test of 42_ecdsa.md R164. -/
theorem verifySig_iff (z qx qy r sv : Nat) :
    verifySig z qx qy r sv = true ↔ Accepts z (reducePoint qx qy) r sv := by
  by_cases hg : r = 0 ∨ sv = 0 ∨ groupOrder ≤ r ∨ groupOrder ≤ sv
  · rw [verifySig, if_pos hg]
    exact iff_of_false nofun fun ⟨_, _, _, _, _⟩ => by omega
  · rw [verifySig, if_neg hg]
    simp only [invM_eq sv groupOrder_pos (by decide), mulM_eq]
    generalize hp : padd _ _ = pt
    have hacc : Accepts z (reducePoint qx qy) r sv ↔ pt ≠ identity ∧ pt.x % groupOrder = r := by
      constructor
      · rintro ⟨-, -, -, -, _, _, rfl, rfl, h⟩
        rwa [hp] at h
      · exact fun h => ⟨by omega, by omega, by omega, by omega, _, pt, rfl, hp.symm, h⟩
    rw [hacc, Ne, ← isId_iff]
    split
    · next hid => exact iff_of_false nofun fun h => h.1 hid
    · next hid => simp [hid]

theorem opcode_eq_verify {i : Instr} (h : i.opcode = .verify) : ∃ ra rb rm, i = .verify ra rb rm := by
  cases i with
  | verify ra rb rm => exact ⟨ra, rb, rm, rfl⟩
  | _ => cases h

/-- A command sets VRES exactly when it is a VERIFY whose test holds. -/
theorem exec_vres_iff {i : Instr} {s t : State} (hv : s.vres = false) (h : exec i s = .next t) :
    t.vres = true ↔ ∃ ra rb rm, i = .verify ra rb rm ∧
      Accepts (s.val ra) (pointAt s rb) (s.val rm) (s.val (rm + 1)) := by
  by_cases ho : i.opcode = .verify
  · obtain ⟨ra, rb, rm, rfl⟩ := opcode_eq_verify ho
    cases h
    rw [finishVerdict_vres, verifySig_iff]
    constructor
    · exact fun ha => ⟨ra, rb, rm, rfl, ha⟩
    · rintro ⟨_, _, _, ⟨⟩, ha⟩
      exact ha
  · rw [(namedEffect_of_exec h).vres_of_ne_verify ho, hv]
    refine iff_of_false nofun ?_
    rintro ⟨ra, rb, rm, rfl, -⟩
    exact ho rfl

theorem engineTurn_vres_iff {s t : State} (hb : s.busy = true) (hv : s.vres = false)
    (h : engineTurn s = .next t) :
    t.vres = true ↔ ∃ ra rb rm, decode s.cmdlast = .ok (.verify ra rb rm) ∧
      Accepts (s.val ra) (pointAt s rb) (s.val rm) (s.val (rm + 1)) := by
  rcases engineTurn_cases h with ⟨hi, -⟩ | ⟨-, i, hd, hx⟩ | ⟨-, e, hd, rfl⟩
  · rw [hb] at hi; cases hi
  · simp only [exec_vres_iff hv hx, hd, Except.ok.injEq]
  · simp [hv, hd]

/-- Settles O49: only a VERIFY writes VRES, and what it writes is the test of R164. -/
theorem verifyResultFlagRule : Obligations.VerifyResultFlagRule := by
  refine ⟨?_, fun s t hb hv h => engineTurn_vres_iff hb hv h, ?_, rfl⟩
  · intro s t w rest hb hw h
    cases (step_cmdWrite hb hw).symm.trans h
    rfl
  · intro s t n rest hr h
    cases (step_reset hr).symm.trans h
    rfl

/-! ### OVR (10_state.md R37) -/

/-- A write sets OVR when dropped and clears it by bit 5 of STATUS; else OVR stays. -/
theorem busWrite_ovr_iff (s : State) (a : BusAddr) (v : BusWord) : (s.busWrite a v).ovr = true ↔
    (s.ovr = true ∧ ¬ (busTarget a = .status ∧ v.getLsbD 5 = true)) ∨
    (s.busy = true ∧ (busTarget a = .cmd ∨ ∃ i k, busTarget a = .word i k)) := by
  rw [State.busWrite, respond_ovr]
  rcases writeEffect_cases s a v with
    ⟨ha | ha, e⟩ | ⟨ha, e⟩ | ⟨ha, e⟩ | ⟨ha, hb, e⟩ | ⟨i, k, ha, hb, e⟩ | ⟨ha, hb, e⟩ <;> simp_all

/-- The addresses whose write is dropped while busy (20_memory.md R58). -/
theorem busTarget_dropped {a : BusAddr} : (busTarget a = .cmd ∨ ∃ i k, busTarget a = .word i k) ↔
    a.toNat = 0x00C ∨ (0x100 ≤ a.toNat ∧ a.toNat ≤ 0x2FF ∧ a.toNat % 4 = 0) := by
  rw [busTarget_isWord, busTarget_cmd_iff, ← BitVec.toNat_inj]
  rfl

theorem step_sets_ovr_iff {s t : State} (h : step s = .next t) (hs : s.ovr = false) :
    t.ovr = true ↔ s.busy = true ∧ ∃ a v rest, s.events = .write a v :: rest ∧
      (a.toNat = 0x00C ∨ (0x100 ≤ a.toNat ∧ a.toNat ≤ 0x2FF ∧ a.toNat % 4 = 0)) := by
  rcases step_cases h with
    ⟨hev, he⟩ | ⟨a, rest, hev, rfl⟩ | ⟨a, v, rest, hev, rfl⟩ | ⟨rest, hev, he⟩ | ⟨n, rest, hev, rfl⟩
  · simp [hev, engineTurn_ovr he, hs]
  · simp [hev, hs]
  · rw [busWrite_ovr_iff, busTarget_dropped]
    simp [hev, hs]
  · simp [hev, engineTurn_ovr he, hs]
  · simp [hev]

theorem step_clears_ovr {s t : State} (h : step s = .next t) (hs : s.ovr = true) (ht : t.ovr = false) :
    (∃ v rest, s.events = .write 0x008 v :: rest ∧ v.getLsbD 5 = true) ∨ ∃ n rest, s.events = .reset n :: rest := by
  rcases step_cases h with
    ⟨hev, he⟩ | ⟨a, rest, hev, rfl⟩ | ⟨a, v, rest, hev, rfl⟩ | ⟨rest, hev, he⟩ | ⟨n, rest, hev, rfl⟩
  · simp [engineTurn_ovr he, hs] at ht
  · simp [hs] at ht
  · by_cases hc : busTarget a = .status ∧ v.getLsbD 5 = true
    · obtain ⟨ha, hv⟩ := hc
      rw [busTarget_status_iff] at ha
      exact .inl ⟨v, rest, ha ▸ hev, hv⟩
    · rw [(busWrite_ovr_iff (s.setEvents rest) a v).mpr (.inl ⟨hs, hc⟩)] at ht
      cases ht
  · simp [engineTurn_ovr he, hs] at ht
  · exact .inr ⟨n, rest, hev⟩

/-- Settles O50, by the cases of a step; among the writes only a dropped one and one to STATUS touch OVR. -/
theorem overrunFlagRule : Obligations.OverrunFlagRule :=
  ⟨fun _ _ h => engineTurn_ovr h, fun _ _ h hs => step_sets_ovr_iff h hs,
    fun _ _ h hs ht => step_clears_ovr h hs ht⟩

/-! ### The interrupt output (10_state.md R32; 60_exceptions.md R187, R188) -/

theorem engineTurn_irq_rises_iff {s t : State} (h : engineTurn s = .next t) (hs : s.irq = false) :
    t.irq = true ↔ s.busy = true ∧ t.busy = false ∧ t.done = true ∧ s.irqen = true := by
  have hi := engineTurn_irqen h
  rcases engineTurn_stays_or_completes h with rfl | ⟨hb, hb', hd⟩
  · rw [hs]
    exact iff_of_false nofun fun ⟨hb, hb', _⟩ => by rw [hb] at hb'; cases hb'
  · simp [State.irq, hb, hb', hd, hi]

theorem engineTurn_keeps_irq {s t : State} (h : engineTurn s = .next t) (hs : s.irq = true) : t.irq = true := by
  have hi := engineTurn_irqen h
  rcases engineTurn_stays_or_completes h with rfl | ⟨hb, hb', hd⟩
  · exact hs
  · simp_all [State.irq]

/-- A write raises `irq` only by setting IRQEN with DONE pending. -/
theorem busWrite_raises_irq_iff {s : State} (hs : s.irq = false) (a : BusAddr) (v : BusWord) :
    (s.busWrite a v).irq = true ↔ busTarget a = .ctrl ∧ v.getLsbD 0 = true ∧ s.done = true := by
  simp only [State.irq, State.busWrite, respond_done, respond_irqen] at hs ⊢
  rcases writeEffect_cases s a v with
    ⟨ha | ha, e⟩ | ⟨ha, e⟩ | ⟨ha, e⟩ | ⟨ha, -, e⟩ | ⟨i, k, ha, -, e⟩ | ⟨ha | ⟨i, k, ha⟩, -, e⟩ <;>
    cases hd : s.done <;> simp_all

/-- A write drops `irq` by clearing DONE, by clearing IRQEN, or by an acceptance, which clears DONE. -/
theorem busWrite_drops_irq_iff {s : State} (hs : s.irq = true) (a : BusAddr) (v : BusWord) :
    (s.busWrite a v).irq = false ↔ (busTarget a = .status ∧ v.getLsbD 1 = true) ∨
      (busTarget a = .ctrl ∧ v.getLsbD 0 = false) ∨ (busTarget a = .cmd ∧ s.busy = false) := by
  simp only [State.irq, State.busWrite, respond_done, respond_irqen, Bool.and_eq_true] at hs ⊢
  rcases writeEffect_cases s a v with
    ⟨ha | ha, e⟩ | ⟨ha, e⟩ | ⟨ha, e⟩ | ⟨ha, hb, e⟩ | ⟨i, k, ha, -, e⟩ | ⟨ha | ⟨i, k, ha⟩, hb, e⟩ <;>
    simp [*]

@[simp] theorem setEvents_irq (s : State) (l : List Event) : (s.setEvents l).irq = s.irq := rfl

@[simp] theorem busRead_irq (s : State) (a : BusAddr) : (s.busRead a).irq = s.irq := rfl

theorem step_raises_irq_iff {s t : State} (h : step s = .next t) (hs : s.irq = false) : t.irq = true ↔
    (s.busy = true ∧ t.busy = false ∧ t.done = true ∧ s.irqen = true) ∨
      ∃ v rest, s.events = .write 0x004 v :: rest ∧ v.getLsbD 0 = true ∧ s.done = true := by
  rcases step_cases h with
    ⟨hev, he⟩ | ⟨a, rest, hev, rfl⟩ | ⟨a, v, rest, hev, rfl⟩ | ⟨rest, hev, he⟩ | ⟨n, rest, hev, rfl⟩
  · simp [hev, engineTurn_irq_rises_iff he hs]
  · simp +contextual [hev, hs]
  · have hb : ¬ (s.busy = true ∧ ((s.setEvents rest).busWrite a v).busy = false ∧
        ((s.setEvents rest).busWrite a v).done = true ∧ s.irqen = true) := fun ⟨hb, hb', _⟩ =>
      Bool.false_ne_true (hb'.symm.trans (busWrite_inFlight (s := s.setEvents rest) hb a v).1)
    rw [busWrite_raises_irq_iff (s := s.setEvents rest) hs, busTarget_ctrl_iff]
    simp [hev, hb]
  · simp [hev, engineTurn_irq_rises_iff he hs]
  · simp [hev, State.irq]

theorem step_drops_irq_iff {s t : State} (h : step s = .next t) (hs : s.irq = true) : t.irq = false ↔
    (∃ v rest, s.events = .write 0x008 v :: rest ∧ v.getLsbD 1 = true) ∨
      (∃ v rest, s.events = .write 0x004 v :: rest ∧ v.getLsbD 0 = false) ∨
      (∃ w rest, s.events = .write 0x00C w :: rest ∧ s.busy = false) ∨ ∃ n rest, s.events = .reset n :: rest := by
  rcases step_cases h with
    ⟨hev, he⟩ | ⟨a, rest, hev, rfl⟩ | ⟨a, v, rest, hev, rfl⟩ | ⟨rest, hev, he⟩ | ⟨n, rest, hev, rfl⟩
  · simp [hev, engineTurn_keeps_irq he hs]
  · simp [hev, hs]
  · rw [busWrite_drops_irq_iff (s := s.setEvents rest) hs, busTarget_status_iff, busTarget_ctrl_iff,
      busTarget_cmd_iff]
    simp [hev]
  · simp [hev, engineTurn_keeps_irq he hs]
  · simp [hev, State.irq]

/-- Settles O51, by the cases of a step; a write moves `irq` only through DONE or IRQEN. -/
theorem interruptRule : Obligations.InterruptRule :=
  ⟨fun s => ⟨s.statusWord, s.ctrlWord, readResponse_status s, readResponse_ctrl s, by
      rw [statusWord_getLsbD_one, ctrlWord_getLsbD_zero, State.irq]⟩,
    fun _ _ h => ⟨step_raises_irq_iff h, step_drops_irq_iff h⟩⟩

end Sys2Proof.Machine
end

section
/-! PROOFS. The statements of 20_memory.md: the register window idle and busy, the control registers, bus errors, what
the host can see and change while a command is in flight, and a command from its CMD write to the engine's turn. -/

namespace Sys2Proof.Machine

open Sys2Proof.Claims

/-! ### Runs of host transactions while a command is in flight (20_memory.md R56, R58, R62 (4)) -/

/-- A step that answers a next state is the first of a run. -/
theorem run_succ_of_step {s t : State} (k : Nat) (h : step s = .next t) :
    Host.Core.run Sys2Proof.core (k + 1) s = Host.Core.run Sys2Proof.core k t := by
  have h' : Sys2Proof.core.step s = .next t := h
  simp only [Host.Core.run, h']

/-- The step on a pending event performs it. -/
theorem step_cons {s : State} {e : Event} {rest : List Event} (h : s.events = e :: rest) :
    step s = performEvent e (s.setEvents rest) := by
  simp only [step, nextStep, h]

/-- The same block with other register contents and draws: what the host must not learn while busy. -/
def State.withSecrets (s : State) (regs : Vector Word 16) (draws : List Word) : State :=
  { s with regs := regs, draws := draws }

/-- A command in flight in s is in flight in t, on the same operands and draws (20_memory.md R62 (4)). -/
structure SameInFlight (s t : State) : Prop where
  busy : t.busy = true
  cmdlast : t.cmdlast = s.cmdlast
  regs : t.regs = s.regs
  draws : t.draws = s.draws

theorem SameInFlight.trans {s t u : State} (h : SameInFlight s t) (h' : SameInFlight t u) : SameInFlight s u :=
  ⟨h'.busy, h'.cmdlast.trans h.cmdlast, h'.regs.trans h.regs, h'.draws.trans h.draws⟩

section Busy

variable {s : State} (hb : s.busy = true)
include hb

/-- While busy no read depends on the registers or the draws: the window reads 0 (20_memory.md R56). -/
theorem readResponse_withSecrets (regs : Vector Word 16) (draws : List Word) (a : BusAddr) :
    (s.withSecrets regs draws).readResponse a = s.readResponse a := by
  unfold State.readResponse
  cases busTarget a with
  | word i k =>
    simp only [windowWord_busy hb, windowWord_busy (s := s.withSecrets regs draws) hb]
  | id => rfl
  | ctrl => rfl
  | status => rfl
  | cmd => rfl
  | busError => rfl

theorem busRead_withSecrets (regs : Vector Word 16) (draws : List Word) (a : BusAddr) :
    (s.withSecrets regs draws).busRead a = (s.busRead a).withSecrets regs draws := by
  rw [State.busRead, readResponse_withSecrets hb]
  rfl

/-- While busy no write depends on the registers or the draws: one to CMD or the window is dropped (20_memory.md R58). -/
theorem busWrite_withSecrets (regs : Vector Word 16) (draws : List Word) (a : BusAddr) (v : BusWord) :
    (s.withSecrets regs draws).busWrite a v = (s.busWrite a v).withSecrets regs draws := by
  have hb' : (s.withSecrets regs draws).busy = true := hb
  cases h : busTarget a with
  | id => rw [busWrite_id _ _ h, busWrite_id _ _ h]; rfl
  | ctrl => rw [busWrite_ctrl _ _ h, busWrite_ctrl _ _ h]; rfl
  | status => rw [busWrite_status _ _ h, busWrite_status _ _ h]; rfl
  | cmd => rw [busWrite_cmd _ _ h, busWrite_cmd _ _ h, writeCmd_busy hb, writeCmd_busy hb']; rfl
  | word i k => rw [busWrite_word _ _ h, busWrite_word _ _ h, writeWord_busy hb, writeWord_busy hb']; rfl
  | busError => rw [busWrite_busError _ _ h, busWrite_busError _ _ h]; rfl

/-- One host transaction while busy: the command in flight stays, and with other registers and draws the block does and
answers the same. -/
theorem performEvent_inFlight {e : Event} (he : IsHostEvent e) :
    ∃ t, performEvent e s = .next t ∧ t.events = s.events ∧ SameInFlight s t ∧ ∀ regs draws,
      performEvent e (s.withSecrets regs draws) = .next (t.withSecrets regs draws) := by
  cases e with
  | read a =>
    exact ⟨s.busRead a, rfl, rfl, ⟨hb, rfl, rfl, rfl⟩,
      fun regs draws => congrArg Host.Outcome.next (busRead_withSecrets hb regs draws a)⟩
  | write a v =>
    obtain ⟨hbusy, hcmd, hregs, hdraws⟩ := busWrite_inFlight hb a v
    exact ⟨s.busWrite a v, rfl, busWrite_events s v a, ⟨hbusy, hcmd, hregs, hdraws⟩,
      fun regs draws => congrArg Host.Outcome.next (busWrite_withSecrets hb regs draws a v)⟩
  | engine => exact he.elim
  | reset taken => exact he.elim

end Busy

/-- Any list of host transactions while busy: the invariant of a command in flight, for one run and for every run that
differs from it in the registers and draws alone. -/
theorem run_inFlight {hostEvents rest : List Event} {s : State} (he : ∀ e ∈ hostEvents, IsHostEvent e)
    (h : s.events = hostEvents ++ rest) (hb : s.busy = true) :
    ∃ t : State, Host.Core.run Sys2Proof.core hostEvents.length s = .next t ∧ t.events = rest ∧ SameInFlight s t ∧
      ∀ regs draws, Host.Core.run Sys2Proof.core hostEvents.length (s.withSecrets regs draws) =
        .next (t.withSecrets regs draws) := by
  induction hostEvents generalizing s with
  | nil => exact ⟨s, rfl, h, ⟨hb, rfl, rfl, rfl⟩, fun _ _ => rfl⟩
  | cons e es ih =>
    obtain ⟨hhead, htail⟩ := List.forall_mem_cons.mp he
    obtain ⟨t, ht, hev, hst, hsecret⟩ := performEvent_inFlight (s := s.setEvents (es ++ rest)) hb hhead
    obtain ⟨u, hu, hurest, htu, husecret⟩ := ih htail hev hst.busy
    refine ⟨u, (run_succ_of_step _ ((step_cons h).trans ht)).trans hu, hurest,
      .trans ⟨hst.busy, hst.cmdlast, hst.regs, hst.draws⟩ htu, fun regs draws => ?_⟩
    have hstep := (step_cons (s := s.withSecrets regs draws) h).trans (hsecret regs draws)
    exact (run_succ_of_step _ hstep).trans (husecret regs draws)

/-- Settles O38, by the induction over the host's transactions; while busy none of them reads a register or a draw. -/
theorem hostLearnsNothingWhileBusy : Obligations.HostLearnsNothingWhileBusy := by
  intro hostEvents rest s regs' draws' he h hb
  obtain ⟨t, ht, hrest, -, hsecret⟩ := run_inFlight he h hb
  exact ⟨t, ht, hrest, hsecret regs' draws'⟩

/-- The engine's turn on a command in flight that decodes is the command (60_exceptions.md R185). -/
theorem step_engine_of_decode {s : State} {i : Instr} {rest : List Event} (hb : s.busy = true)
    (hd : decode s.cmdlast = .ok i) (h : s.events = .engine :: rest) : step s = exec i (s.setEvents rest) := by
  rw [step_engine h]
  simp [engineTurn, engineStep, hb, hd]

/-- Settles O39, by the same induction: the engine's turn finds the command and its operands unchanged. -/
theorem operandsStableInFlight : Obligations.OperandsStableInFlight := by
  intro hostEvents rest s i he h hb hd
  obtain ⟨t, ht, hrest, hst, -⟩ := run_inFlight he h hb
  exact ⟨t, ht, hst.busy, hst.cmdlast, hst.regs, hst.draws,
    step_engine_of_decode hst.busy (hst.cmdlast ▸ hd) hrest⟩

/-! ### The register window (20_memory.md R55, R56) -/

/-- Word k of Ri is at its byte address (20_memory.md R52). -/
theorem busTarget_wordAddr (i : Reg) (k : Fin 8) : busTarget (wordAddr i k) = .word i k := busTarget_word i k

theorem wordOf_toNat (v : Word) (k : Fin 8) : (wordOf v k).toNat = v.toNat / 2 ^ (224 - 32 * k.val) % 2 ^ 32 := by
  rw [wordOf, BitVec.extractLsb'_toNat, Nat.shiftRight_eq_div_pow, wordLsb]

theorem windowWord_toNat (s : State) (i : Reg) (k : Fin 8) : (s.windowWord i k).toNat =
    if s.busy then 0 else s.val i / 2 ^ (224 - 32 * k.val) % 2 ^ 32 := by
  cases hb : s.busy
  · rw [windowWord_idle hb, wordOf_toNat]; rfl
  · rw [windowWord_busy hb]; rfl

/-- The 32 bits of a word are [255-32k : 224-32k] (20_memory.md R52). -/
theorem mem_word_bits (k : Fin 8) (j : Nat) :
    (wordLsb k ≤ j ∧ j < wordLsb k + 32) ↔ (224 - 32 * k.val ≤ j ∧ j ≤ 255 - 32 * k.val) := by
  have := k.isLt
  rw [wordLsb]
  omega

/-- Settles O30, by the address map and the bits of a replaced word. -/
theorem windowReadsAndWrites : Obligations.WindowReadsAndWrites := by
  intro s i k v rest
  have ha := busTarget_wordAddr i k
  refine ⟨fun h => ?_, fun h hb => ?_, fun h hb => ?_⟩
  · refine ⟨(s.setEvents rest).windowWord i k, ?_, windowWord_toNat _ i k⟩
    rw [step_read h, busRead_word _ ha]
  · rw [step_write h, busWrite_word _ _ ha, writeWord_busy (s := s.setEvents rest) hb]
    rfl
  · rw [step_write h, busWrite_word _ _ ha, writeWord_idle (s := s.setEvents rest) hb]
    refine ⟨_, rfl, rfl, fun r hr => ?_, fun j hj => ?_⟩
    · exact x_setX_of_ne (s.setEvents rest) _ hr
    · rw [respond_x, x_setX_self, getLsbD_replaceWord _ _ _ _ hj]
      simp only [mem_word_bits, setEvents_x]
      rfl

/-- The aligned addresses up to 0x00C are those of the four control registers (20_memory.md R51). -/
theorem control_addresses {a : BusAddr} (hle : a.toNat ≤ 0x00C) (hal : a.toNat % 4 = 0) :
    a = 0x000 ∨ a = 0x004 ∨ a = 0x008 ∨ a = 0x00C := by
  simp only [← BitVec.toNat_inj, BitVec.ofNat_eq_ofNat, BitVec.toNat_ofNat]
  omega

/-- Settles O31: an aligned address names a window word, which is 0 while busy, or one of the control registers. -/
theorem busyWindowReadsZero : Obligations.BusyWindowReadsZero := by
  intro s a rest hb h
  refine ⟨fun hlo hhi hal => ?_, fun hle hal => ?_⟩
  · obtain ⟨i, k, ha⟩ := (busTarget_isWord a).mpr ⟨hlo, hhi, hal⟩
    rw [step_read h, busRead_word _ ha, windowWord_busy (s := s.setEvents rest) hb]
  · rw [step_read h, State.busRead]
    rcases control_addresses hle hal with rfl | rfl | rfl | rfl
    · exact ⟨idValue, by rw [readResponse_id], rfl⟩
    · exact ⟨s.ctrlWord, by rw [readResponse_ctrl]; rfl, rfl⟩
    · exact ⟨s.statusWord, by rw [readResponse_status]; rfl, rfl⟩
    · exact ⟨s.cmdlast, by rw [readResponse_cmd]; rfl, rfl⟩

/-- The addresses of R53 and R54, as the statement writes them. -/
theorem busTarget_busError_of_range {a : BusAddr}
    (h : a.toNat % 4 ≠ 0 ∨ (0x010 ≤ a.toNat ∧ a.toNat ≤ 0x0FF) ∨ (0x300 ≤ a.toNat ∧ a.toNat ≤ 0xFFF)) :
    busTarget a = .busError := by
  rw [busTarget_busError]
  omega

/-- Settles O33: every such address is a bus error, which only the response shows. -/
theorem busErrorsChangeNothing : Obligations.BusErrorsChangeNothing := by
  intro s a v rest hrange
  have ha := busTarget_busError_of_range hrange
  exact ⟨fun h => by rw [step_read h, busRead_busError _ ha], fun h => by rw [step_write h, busWrite_busError _ _ ha]⟩

/-! ### Writes to CMD, CTRL, STATUS and ID (20_memory.md R57 to R59) -/

/-- Settles O34: the write is an acceptance, whose updates are those of R57. -/
theorem cmdWriteAccepts : Obligations.CmdWriteAccepts := fun _ _ _ hb h => step_cmdWrite hb h

/-- A step on a CTRL write, idle or busy (20_memory.md R59). -/
theorem step_ctrlWrite {s : State} {v : BusWord} {rest : List Event} (h : s.events = .write 0x004 v :: rest) :
    step s = .next (((s.setEvents rest).writeCtrl v).respond (.write false)) := by
  rw [step_write h, busWrite_ctrl _ _ (busTarget_ctrl_iff.mpr rfl)]

/-- A step on a STATUS write, idle or busy (20_memory.md R59). -/
theorem step_statusWrite {s : State} {v : BusWord} {rest : List Event} (h : s.events = .write 0x008 v :: rest) :
    step s = .next (((s.setEvents rest).writeStatus v).respond (.write false)) := by
  rw [step_write h, busWrite_status _ _ (busTarget_status_iff.mpr rfl)]

/-- Writing 1 to clear a flag (20_memory.md R59). -/
theorem and_not_eq_ite (flag bit : Bool) : (flag && !bit) = if bit then false else flag := by
  cases bit <;> simp

/-- Settles O36, register by register. -/
theorem controlRegisterWrites : Obligations.ControlRegisterWrites := by
  intro s v rest
  refine ⟨fun h => ?_, fun h => step_ctrlWrite h, fun h => ?_⟩
  · rw [step_statusWrite h, ← and_not_eq_ite, ← and_not_eq_ite]
    rfl
  · rw [step_write h, busWrite_id _ _ (busTarget_eq_control.1.mpr rfl)]

/-- A write to CMD or the window while busy is dropped (20_memory.md R58). -/
theorem busWrite_dropped {s : State} (hb : s.busy = true) {a : BusAddr} (v : BusWord)
    (ha : busTarget a = .cmd ∨ ∃ i k, busTarget a = .word i k) :
    s.busWrite a v = s.dropWrite.respond (.write false) := by
  rcases ha with ha | ⟨i, k, ha⟩
  · rw [busWrite_cmd _ _ ha, writeCmd_busy hb]
  · rw [busWrite_word _ _ ha, writeWord_busy hb]

/-- Settles O35: such a write is dropped, and no write touches the command in flight or its operands. -/
theorem busyWritesAreDropped : Obligations.BusyWritesAreDropped := by
  intro s a v rest hb h
  refine ⟨fun ha => ?_, fun ha => ?_, fun ha => ?_, ?_⟩
  · rw [step_write h, busWrite_dropped (s := s.setEvents rest) hb v (busTarget_dropped.mpr ha)]
    rfl
  · obtain rfl : a = 0x004 := BitVec.toNat_inj.mp ha
    exact step_ctrlWrite h
  · obtain rfl : a = 0x008 := BitVec.toNat_inj.mp ha
    exact step_statusWrite h
  · obtain ⟨hbusy, hcmd, hregs, -⟩ := busWrite_inFlight (s := s.setEvents rest) hb a v
    exact ⟨_, step_write h, hbusy, hcmd, hregs⟩

/-- Settles O40: the write is an acceptance, and the engine's turn after it runs the command accepted. -/
theorem commandThroughTheBus : Obligations.CommandThroughTheBus := by
  intro s w i rest hb hd h
  exact ⟨_, step_cmdWrite hb h, rfl, step_engine_of_decode rfl hd rfl, rfl⟩

/-! ### Reads are harmless and writes idempotent (20_memory.md R60) -/

/-- A read answers from the block's own state, not from what is pending. -/
theorem readResponse_setEvents (s : State) (l : List Event) (a : BusAddr) :
    (s.setEvents l).readResponse a = s.readResponse a := rfl

/-- Nor from the last response: a read leaves every later read's answer. -/
theorem readResponse_busRead (s : State) (a b : BusAddr) : (s.busRead a).readResponse b = s.readResponse b := rfl

/-- A run splits at any of its steps. -/
theorem run_add_of_run {s t : State} {m : Nat} (k : Nat) (h : Host.Core.run Sys2Proof.core m s = .next t) :
    Host.Core.run Sys2Proof.core (m + k) s = Host.Core.run Sys2Proof.core k t := by
  induction m generalizing s with
  | zero => cases h; rw [Nat.zero_add]
  | succ m ih =>
    obtain ⟨u, hu⟩ := step_next s
    rw [run_succ_of_step _ hu] at h
    rw [Nat.succ_add, run_succ_of_step _ hu, ih h]

/-- After any list of reads every address answers as before. -/
theorem run_reads {addrs : List BusAddr} {rest : List Event} {s : State} (h : s.events = addrs.map .read ++ rest) :
    ∃ t : State, Host.Core.run Sys2Proof.core addrs.length s = .next t ∧ t.events = rest ∧
      ∀ a, t.readResponse a = s.readResponse a := by
  induction addrs generalizing s with
  | nil => exact ⟨s, rfl, h, fun _ => rfl⟩
  | cons b bs ih =>
    obtain ⟨t, ht, hrest, hresp⟩ := ih (s := (s.setEvents (bs.map .read ++ rest)).busRead b) rfl
    refine ⟨t, (run_succ_of_step _ (step_read h)).trans ht, hrest, fun a => ?_⟩
    rw [hresp, readResponse_busRead, readResponse_setEvents]

/-- A read repeated after any list of reads answers the same. -/
theorem repeated_read_answers_same {s : State} {a : BusAddr} {others : List BusAddr} {rest : List Event}
    (h : s.events = .read a :: (others.map .read ++ .read a :: rest)) :
    ∃ t u : State, step s = .next t ∧ Host.Core.run Sys2Proof.core (others.length + 2) s = .next u ∧
      u.events = rest ∧ u.resp = t.resp := by
  obtain ⟨t, ht, hev, hresp⟩ := run_reads (addrs := a :: others) h
  have hlast := (run_add_of_run 1 ht).trans (run_succ_of_step 0 (step_read hev))
  exact ⟨_, (t.setEvents rest).busRead a, step_read h, hlast, rfl, congrArg some (hresp a)⟩

/-- Writing a register the value it holds changes nothing. -/
theorem setX_of_x_eq {s : State} {i : Reg} {v : Word} (h : s.x i = v) : s.setX i v = s := by
  subst h
  simp [State.setX, State.x]

/-- Replacing a word twice by the same value is replacing it once (20_memory.md R55). -/
theorem replaceWord_idem (v : Word) (k : Fin 8) (w : BusWord) :
    replaceWord (replaceWord v k w) k w = replaceWord v k w := by
  apply BitVec.eq_of_getLsbD_eq
  intro j hj
  rw [getLsbD_replaceWord _ _ _ _ hj]
  split
  · next hin => rw [getLsbD_replaceWord _ _ _ _ hj, if_pos hin]
  · rfl

/-- A STATUS write whose bits have nothing left to clear changes nothing (20_memory.md R59). -/
theorem writeStatus_of_cleared {s : State} {v : BusWord} (hd : (s.done && !v.getLsbD 1) = s.done)
    (ho : (s.ovr && !v.getLsbD 5) = s.ovr) : s.writeStatus v = s := by
  rw [State.writeStatus, hd, ho]

/-- A repeated write to any address but CMD's leaves the state and the answer: its own effect is in place already. -/
theorem repeated_busWrite (s : State) {a : BusAddr} (v : BusWord) (l : List Event) (ha : busTarget a ≠ .cmd) :
    ((s.busWrite a v).setEvents l).busWrite a v = (s.busWrite a v).setEvents l := by
  cases h : busTarget a with
  | id => rw [busWrite_id _ _ h, busWrite_id _ _ h]; rfl
  | ctrl => rw [busWrite_ctrl _ _ h, busWrite_ctrl _ _ h]; rfl
  | status =>
    rw [busWrite_status _ _ h, busWrite_status _ _ h, writeStatus_of_cleared (by simp) (by simp)]
    rfl
  | cmd => exact absurd h ha
  | word i k =>
    rw [busWrite_word _ _ h, busWrite_word _ _ h]
    cases hb : s.busy
    · rw [writeWord_idle hb, writeWord_idle (s := ((s.setX i _).respond _).setEvents l) hb,
        setX_of_x_eq (by simp [replaceWord_idem])]
      rfl
    · rw [writeWord_busy hb, writeWord_busy (s := (s.dropWrite.respond _).setEvents l) hb]
      rfl
  | busError => rw [busWrite_busError _ _ h, busWrite_busError _ _ h]; rfl

/-- A second CMD write, right after the one that issued a command, is dropped, which OVR shows (20_memory.md R58). -/
theorem second_cmdWrite_seen {s t : State} {v : BusWord} {rest : List Event} (hb : s.busy = false)
    (ho : s.ovr = false) (h : s.events = .write 0x00C v :: .write 0x00C v :: rest) (ht : step s = .next t) :
    ∃ u, step t = .next u ∧ u ≠ t.setEvents rest := by
  cases (step_cmdWrite hb h).symm.trans ht
  refine ⟨_, step_write rfl, fun heq => ?_⟩
  rw [busWrite_dropped rfl v (.inl (busTarget_cmd_iff.mpr rfl))] at heq
  have hovr : true = s.ovr := congrArg State.ovr heq
  rw [ho] at hovr
  cases hovr

/-- Settles O37: reads answer from the block alone, every write's effect but CMD's is idempotent, and a second CMD write
sets OVR. -/
theorem readsAreHarmlessAndWritesIdempotent : Obligations.ReadsAreHarmlessAndWritesIdempotent := by
  refine ⟨?_, fun s a others rest h => repeated_read_answers_same h, ?_,
    fun s t v rest hb ho h ht => second_cmdWrite_seen hb ho h ht⟩
  · intro s t a rest h ht
    cases (step_read h).symm.trans ht
    rfl
  · intro s t a v rest ha h ht
    have hcmd : busTarget a ≠ .cmd := fun hc => ha (congrArg BitVec.toNat (busTarget_cmd_iff.mp hc))
    cases (step_write h).symm.trans ht
    rw [step_write (busWrite_events _ _ _), repeated_busWrite _ v rest hcmd]

end Sys2Proof.Machine
end

section
/-! PROOFS. The statements of 30_encoding.md: the decoder as the opcode map, the decoder and the encoder as inverses of
each other, and the completion of a word that does not decode. -/

namespace Sys2Proof

open Sys2Proof.Machine Sys2Proof.Claims

/-! ### What a mask test says of the fields of a word (30_encoding.md R70, R71, R74) -/

section MaskTest

variable {w mask pattern : BusWord} (h : w &&& mask = pattern)
include h

/-- A mask test, read on one field. -/
theorem extractLsb'_of_masked (lo len : Nat) :
    w.extractLsb' lo len &&& mask.extractLsb' lo len = pattern.extractLsb' lo len := by
  rw [← BitVec.extractLsb'_and, h]

/-- A field whose every bit the mask tests is the pattern's. -/
theorem extractLsb'_of_masked_all {lo len : Nat} (hm : mask.extractLsb' lo len = BitVec.allOnes len) :
    w.extractLsb' lo len = pattern.extractLsb' lo len := by
  simpa [hm] using extractLsb'_of_masked h lo len

/-- A field of class Z: the mask tests its four bits for 0. -/
theorem operandField_eq_zero {lo : Nat} (hm : mask.extractLsb' lo 4 = BitVec.allOnes 4)
    (hp : pattern.extractLsb' lo 4 = 0) : operandField w lo = 0 := by
  rw [operandField, extractLsb'_of_masked_all h hm, hp]
  rfl

/-- A field of class Q: the mask tests its low bit for 0. -/
theorem isPair_operandField {lo : Nat} (hm : mask.extractLsb' lo 4 = 1) (hp : pattern.extractLsb' lo 4 = 0) :
    Reg.isPair (operandField w lo) = true := by
  have even_of_low_bit : ∀ b : BitVec 4, b &&& 1 = 0 → Reg.isPair b.toFin = true := by decide
  exact even_of_low_bit _ (by rw [← hm, ← hp]; exact extractLsb'_of_masked h lo 4)

end MaskTest

/-- A word whose low ten bits are 0 is the assembly of its fields (30_encoding.md R70). -/
theorem assemble_fields {w : BusWord} (h : w.extractLsb' 0 10 = 0) :
    assemble (opField w) (rdField w) (raField w) (rbField w) (rmField w) = w := by
  apply BitVec.eq_of_getLsbD_eq
  intro j hj
  have bit {lo len : Nat} (hlo : lo ≤ j) (hlen : j - lo < len) :
      (w.extractLsb' lo len).getLsbD (j - lo) = w.getLsbD j := by
    simp [hlen, Nat.add_sub_cancel' hlo]
  refine (getLsbD_assemble (opField w) (w.extractLsb' 22 4) (w.extractLsb' 18 4) (w.extractLsb' 14 4)
    (w.extractLsb' 10 4) j hj).trans ?_
  split_ifs with h10 h14 h18 h22 h26
  · rw [← bit (Nat.zero_le j) h10, h]
    exact BitVec.getLsbD_zero.symm
  all_goals exact bit (by omega) (by omega)

namespace Opcode

/-- Only LDC has op 0x07 (30_encoding.md R74). -/
theorem bits_eq_ldc_iff {o : Opcode} : o.bits = 0x07 ↔ o = .ldc := by cases o <;> decide

variable {o : Opcode} {w : BusWord}

/-- A word that passes a row's mask test has the row's op (30_encoding.md R74). -/
theorem opField_of_masked (h : w &&& o.mask = o.pattern) : opField w = o.bits := by
  have hm : o.mask.extractLsb' 26 6 = BitVec.allOnes 6 := by cases o <;> rfl
  have hp : o.pattern.extractLsb' 26 6 = o.bits := by cases o <;> rfl
  exact (extractLsb'_of_masked_all h hm).trans hp

/-- And it is the assembly of its fields: every mask tests w[9:0] for 0 (30_encoding.md R74). -/
theorem assemble_of_masked (h : w &&& o.mask = o.pattern) :
    assemble o.bits (rdField w) (raField w) (rbField w) (rmField w) = w := by
  have hm : o.mask.extractLsb' 0 10 = BitVec.allOnes 10 := by cases o <;> rfl
  have hp : o.pattern.extractLsb' 0 10 = 0 := by cases o <;> rfl
  rw [← opField_of_masked h]
  exact assemble_fields ((extractLsb'_of_masked_all h hm).trans hp)

/-- A word that passes a row's checks is a legal command of the row: each pair operand is even (30_encoding.md R71). -/
theorem instr_wellFormed (h : w &&& o.mask = o.pattern) (hk : o = .ldc → (raField w).val ≤ 4) :
    (o.instr w).WellFormed := by
  cases o with
  | addm | subm | mulm | expm | invm | divm => rfl
  | ldc => exact decide_eq_true (hk rfl)
  | pubk | sign => exact isPair_operandField h rfl rfl
  | pdbl | smul | verify =>
    exact Bool.and_eq_true_iff.mpr ⟨isPair_operandField h rfl rfl, isPair_operandField h rfl rfl⟩
  | padd =>
    exact Bool.and_eq_true_iff.mpr
      ⟨Bool.and_eq_true_iff.mpr ⟨isPair_operandField h rfl rfl, isPair_operandField h rfl rfl⟩,
        isPair_operandField h rfl rfl⟩

/-- The row's command with the word's operands has that word: the fields it omits are 0 (30_encoding.md R79). -/
theorem encode_instr (h : w &&& o.mask = o.pattern) : encode (o.instr w) = w := by
  have hw := assemble_of_masked h
  cases o with
  | addm | subm | mulm | expm | divm => exact hw
  | invm =>
    have hrb : rbField w = 0 := operandField_eq_zero h rfl rfl
    rwa [hrb] at hw
  | padd | smul | sign =>
    have hrm : rmField w = 0 := operandField_eq_zero h rfl rfl
    rwa [hrm] at hw
  | ldc | pdbl | pubk =>
    have hrb : rbField w = 0 := operandField_eq_zero h rfl rfl
    have hrm : rmField w = 0 := operandField_eq_zero h rfl rfl
    rwa [hrb, hrm] at hw
  | verify =>
    have hrd : rdField w = 0 := operandField_eq_zero h rfl rfl
    rwa [hrd] at hw

end Opcode

/-! ### The decoder and the encoder are inverses (30_encoding.md R78, R79) -/

/-- The decoder row by row: w is a command exactly when a row's checks pass, and then the command is that row's with the
operands of w (30_encoding.md R74). -/
theorem decode_eq_ok_iff {w : BusWord} {i : Instr} : decode w = .ok i ↔
    ∃ o : Opcode, w &&& o.mask = o.pattern ∧ (o = .ldc → (raField w).val ≤ 4) ∧ i = o.instr w := by
  constructor
  · intro h
    obtain ⟨o, -, hm, hk, rfl⟩ := decode_ok h
    exact ⟨o, hm, hk, rfl⟩
  · rintro ⟨o, hm, hk, rfl⟩
    have hK : ¬ (o = .ldc ∧ (raField w).val > 4) := fun ⟨ho, hgt⟩ => absurd (hk ho) (by omega)
    simp only [decode, Opcode.opField_of_masked hm, ofBits_bits, ne_eq, hm, not_true_eq_false, if_false, if_neg hK]

/-- The word of a legal command passes its row's mask test, by the family EncodedRow. -/
theorem encode_masked (i : Instr) : Laws.EncodedRow.Statement i := by
  cases i with
  | addm rd ra rb rm => exact Laws.EncodedRow.addm rd ra rb rm
  | subm rd ra rb rm => exact Laws.EncodedRow.subm rd ra rb rm
  | mulm rd ra rb rm => exact Laws.EncodedRow.mulm rd ra rb rm
  | expm rd ra rb rm => exact Laws.EncodedRow.expm rd ra rb rm
  | invm rd ra rm => exact Laws.EncodedRow.invm rd ra rm
  | divm rd ra rb rm => exact Laws.EncodedRow.divm rd ra rb rm
  | ldc rd k => exact Laws.EncodedRow.ldc rd k
  | padd rd ra rb => exact Laws.EncodedRow.padd rd ra rb
  | pdbl rd ra => exact Laws.EncodedRow.pdbl rd ra
  | smul rd ra rb => exact Laws.EncodedRow.smul rd ra rb
  | pubk rd ra => exact Laws.EncodedRow.pubk rd ra
  | sign rd ra rb => exact Laws.EncodedRow.sign rd ra rb
  | verify ra rb rm => exact Laws.EncodedRow.verify ra rb rm

/-- A command's row reads its own operands back from its word (30_encoding.md R70, R79). -/
theorem instr_encode (i : Instr) : i.opcode.instr (encode i) = i := by
  cases i <;> simp [Instr.opcode, Opcode.instr, encode]

/-- The constant index in the word of a legal LDC is at most 4 (30_encoding.md R71). -/
theorem raField_encode_le_four {i : Instr} (hwf : i.WellFormed) (h : i.opcode = .ldc) :
    (raField (encode i)).val ≤ 4 := by
  cases i with
  | ldc rd k =>
    have hk : k.val ≤ 4 := of_decide_eq_true hwf
    simpa [encode] using hk
  | _ => cases h

/-- Settles O1: the word passes its row's checks, and the row reads the operands back. -/
theorem decodeOfEncode : Obligations.DecodeOfEncode := fun i hwf =>
  decode_eq_ok_iff.mpr ⟨i.opcode, encode_masked i hwf, raField_encode_le_four hwf, (instr_encode i).symm⟩

/-- Settles O2: the row's mask pins every bit of the word that no operand of the command holds. -/
theorem encodeOfDecode : Obligations.EncodeOfDecode := by
  intro w i h
  obtain ⟨o, hm, hk, rfl⟩ := decode_eq_ok_iff.mp h
  exact ⟨Opcode.instr_wellFormed hm hk, Opcode.encode_instr hm⟩

/-- Settles O4: each word is the encoding R81 shows, by evaluation. -/
theorem exampleWordsDecode : Obligations.ExampleWordsDecode := by
  unfold Obligations.ExampleWordsDecode
  decide

/-! ### The opcode map (30_encoding.md R74) -/

/-- The rows in the order of the opcode map. -/
def Opcode.all : List Opcode :=
  [.addm, .subm, .mulm, .expm, .invm, .divm, .ldc, .padd, .pdbl, .smul, .pubk, .sign, .verify]

theorem Opcode.mem_all (o : Opcode) : o ∈ Opcode.all := by cases o <;> decide

/-- The map written out in the claims has the columns of the model's rows. -/
theorem opcodeMap_eq : opcodeMap = Opcode.all.map fun o => (o.bits, o.pattern, o.mask) := rfl

theorem mem_opcodeMap {row : BitVec 6 × BusWord × BusWord} :
    row ∈ opcodeMap ↔ ∃ o : Opcode, (o.bits, o.pattern, o.mask) = row := by
  simp [opcodeMap_eq, Opcode.mem_all]

theorem opcode_mem_opcodeMap (o : Opcode) : (o.bits, o.pattern, o.mask) ∈ opcodeMap := mem_opcodeMap.mpr ⟨o, rfl⟩

theorem legalWord_iff {w : BusWord} :
    LegalWord w ↔ ∃ o : Opcode, w &&& o.mask = o.pattern ∧ (o = .ldc → (raField w).val ≤ 4) := by
  constructor
  · rintro ⟨row, hrow, hm, hk⟩
    obtain ⟨o, rfl⟩ := mem_opcodeMap.mp hrow
    exact ⟨o, hm, fun ho => hk (Opcode.bits_eq_ldc_iff.mpr ho)⟩
  · rintro ⟨o, hm, hk⟩
    exact ⟨_, opcode_mem_opcodeMap o, hm, fun hb => hk (Opcode.bits_eq_ldc_iff.mp hb)⟩

theorem mapOp_eq (i : Instr) : mapOp i = i.opcode.bits := by cases i <;> rfl

/-- Settles O3: the decoder's rows are the map's. -/
theorem decoderFollowsOpcodeMap : Obligations.DecoderFollowsOpcodeMap := by
  refine ⟨fun w => ?_, fun w i h => ?_⟩
  · rw [legalWord_iff]
    constructor
    · rintro ⟨i, h⟩
      obtain ⟨o, hm, hk, -⟩ := decode_eq_ok_iff.mp h
      exact ⟨o, hm, hk⟩
    · rintro ⟨o, hm, hk⟩
      exact ⟨o.instr w, decode_eq_ok_iff.mpr ⟨o, hm, hk, rfl⟩⟩
  · obtain ⟨o, hm, -, rfl⟩ := decode_eq_ok_iff.mp h
    rw [mapOp_eq, opcode_instr]
    exact ⟨Opcode.opField_of_masked hm, _, opcode_mem_opcodeMap o, rfl, hm⟩

/-! ### Words that do not decode (30_encoding.md R75, R76) -/

/-- A word outside the 13 values of op has a reserved opcode (30_encoding.md R75). -/
theorem decode_illegalOpcode {w : BusWord} (h : ∀ o : Opcode, opField w ≠ o.bits) :
    decode w = .error .illegalOpcode := by
  have hnone : Opcode.ofBits (opField w) = none :=
    Option.eq_none_iff_forall_ne_some.mpr fun o ho => h o (bits_of_ofBits ho).symm
  simp only [decode, hnone]

/-- A word of a row's op that fails its mask test or LDC's bound on K has an illegal operand (30_encoding.md R76). -/
theorem decode_illegalOperand {w : BusWord} {o : Opcode} (ho : opField w = o.bits)
    (h : w &&& o.mask ≠ o.pattern ∨ (o = .ldc ∧ 5 ≤ (raField w).val)) : decode w = .error .illegalOperand := by
  simp only [decode, ho, ofBits_bits]
  rcases h with hm | ⟨hl, hk⟩
  · rw [if_pos hm]
  · have hK : o = .ldc ∧ (raField w).val > 4 := ⟨hl, hk⟩
    rw [if_pos hK, ite_self]

end Sys2Proof

namespace Sys2Proof.Machine

open Sys2Proof.Claims

/-- The engine's turn on a command in flight that does not decode raises the decoder's error (60_exceptions.md R185). -/
theorem engineTurn_of_decode_error {s : State} {e : DecodeError} (hb : s.busy = true)
    (h : decode s.cmdlast = .error e) : engineTurn s = .next (s.raise (decodeErrorCode e)) := by
  simp only [engineTurn, engineStep, hb, h, if_true]

/-- The same as a step with the engine's turn pending. -/
theorem step_engine_of_decode_error {s : State} {e : DecodeError} {rest : List Event} (hb : s.busy = true)
    (hd : decode s.cmdlast = .error e) (h : s.events = .engine :: rest) :
    step s = .next ((s.setEvents rest).raise (decodeErrorCode e)) := by
  rw [step_engine h]
  exact engineTurn_of_decode_error (s := s.setEvents rest) hb hd

/-- Raising an error ends the command with its code and changes nothing else (60_exceptions.md R181). -/
theorem raise_errorResult (s : State) (e : ErrorCode) : ErrorResult s (s.raise e) e.code := by
  constructor <;> simp

/-- No row has an op in the ranges of R75. -/
theorem opField_ne_bits_of_reserved {w : BusWord}
    (h : (w >>> 26).toNat = 0 ∨ (0x08 ≤ (w >>> 26).toNat ∧ (w >>> 26).toNat ≤ 0x0F) ∨
      (0x14 ≤ (w >>> 26).toNat ∧ (w >>> 26).toNat ≤ 0x1F) ∨ 0x22 ≤ (w >>> 26).toNat) (o : Opcode) :
    opField w ≠ o.bits := by
  intro ho
  have hop : (w >>> 26).toNat = o.bits.toNat := by
    rw [← ho, opField, BitVec.extractLsb'_toNat, BitVec.toNat_ushiftRight]
    omega
  rw [hop] at h
  revert h
  cases o <;> decide

/-- Settles O5: the write is an acceptance, and the engine's turn after it raises ILLEGAL_OPCODE. -/
theorem reservedOpcodeCompletesWithCode1 : Obligations.ReservedOpcodeCompletesWithCode1 := by
  intro s w rest hw hb h
  have hd : decode w = .error .illegalOpcode := decode_illegalOpcode (opField_ne_bits_of_reserved hw)
  exact ⟨_, _, step_cmdWrite hb h, rfl, rfl, step_engine_of_decode_error rfl hd rfl, raise_errorResult _ _,
    fun _ => rfl⟩

/-- Settles O6: the row of the word's op is the one whose check fails, and the engine's turn raises ILLEGAL_OPERAND. -/
theorem illegalOperandCompletesWithCode2 : Obligations.IllegalOperandCompletesWithCode2 := by
  intro s row hrow hb hop h
  obtain ⟨o, rfl⟩ := mem_opcodeMap.mp hrow
  have hd : decode s.cmdlast = .error .illegalOperand :=
    decode_illegalOperand hop (h.imp_right fun ⟨hl, hk⟩ => ⟨Opcode.bits_eq_ldc_iff.mp hl, hk⟩)
  exact ⟨_, engineTurn_of_decode_error hb hd, raise_errorResult s .illegalOperand⟩

end Sys2Proof.Machine
end

section
/-! PROOFS. The statements of 40_modular.md: the adder's and the multiplier's datapaths give the exact results, each
command of the modular unit completes with the exact formula, and the modulus checks. -/

namespace Sys2Proof.Machine

open Sys2Proof.Claims

/-! ### The datapaths (40_modular.md R101, R105) -/

/-- A 256-bit modulus that is not the zero word is positive. -/
theorem toNat_pos_of_ne_zero {m : Word} (hm : m ≠ 0) : 0 < m.toNat :=
  Nat.pos_of_ne_zero fun h => hm (BitVec.eq_of_toNat_eq h)

/-- The native add carries out exactly when the wrapped sum is below an operand; adding 2^256 − m to it then puts the lost
2^256 back and takes m off (40_modular.md R101). -/
theorem adderDatapath_toNat (a b : Word) {m : Word} (hm : m ≠ 0) :
    (adderDatapath a b m).toNat = addM a.toNat b.toNat m.toNat := by
  have hx : (a % m).toNat < m.toNat := BitVec.toNat_umod ▸ Nat.mod_lt _ (toNat_pos_of_ne_zero hm)
  have hy : (b % m).toNat < m.toNat := BitVec.toNat_umod ▸ Nat.mod_lt _ (toNat_pos_of_ne_zero hm)
  rw [addM, ← BitVec.toNat_umod, ← BitVec.toNat_umod, Nat.add_mod_eq_ite, Nat.mod_eq_of_lt hx, Nat.mod_eq_of_lt hy,
    adderDatapath]
  generalize a % m = x at *
  generalize b % m = y at *
  have hones : (BitVec.allOnes 256).toNat = 2 ^ 256 - 1 := BitVec.toNat_allOnes
  split
  case isTrue hcarry =>
    rw [if_pos (by bv_omega)]
    bv_omega
  case isFalse hcarry =>
    split
    case isTrue hle =>
      rw [if_pos (by bv_omega)]
      bv_omega
    case isFalse hlt =>
      rw [if_neg (by bv_omega)]
      bv_omega

theorem adderDatapath_lt (a b : Word) {m : Word} (hm : m ≠ 0) : (adderDatapath a b m).toNat < m.toNat :=
  adderDatapath_toNat a b hm ▸ addM_lt _ _ (toNat_pos_of_ne_zero hm)

/-- Settles O17, by the datapath's value and the bound of addM. -/
theorem adderDatapathIsExact : Obligations.AdderDatapathIsExact := fun a b _ hm =>
  ⟨adderDatapath_toNat a b hm, adderDatapath_toNat a b hm, adderDatapath_lt a b hm⟩

/-- What is left to add after one pass of the loop of 40_modular.md R105: bit 0 of the scanned operand is added to the
accumulator, and the rest of its bits count double. -/
theorem add_bit_add_halves (small : Nat) (acc add m : Nat) :
    (addM acc (small % 2 * add) m + small / 2 * addM add add m) % m = (acc + small * add) % m := by
  have hs : acc + small * add = acc + small % 2 * add + small / 2 * (add + add) := by
    conv_lhs => rw [← Nat.div_add_mod small 2]
    ring
  rw [hs, addM_eq, addM_eq, Nat.mod_add_mod, Nat.add_mod, Nat.mul_mod_mod, ← Nat.add_mod]

/-- The conditional addition of the loop of 40_modular.md R105. -/
theorem accumulate_toNat (small acc add : Word) {m : Word} (hm : m ≠ 0) (hacc : acc.toNat < m.toNat) :
    (if small.getLsbD 0 then adderDatapath acc add m else acc).toNat =
      addM acc.toNat (small.toNat % 2 * add.toNat) m.toNat := by
  rw [BitVec.getLsbD, Nat.testBit_zero]
  rcases Nat.mod_two_eq_zero_or_one small.toNat with h | h
  · simp [h, addM_eq, Nat.mod_eq_of_lt hacc]
  · simp [h, adderDatapath_toNat _ _ hm]

/-- The loop of 40_modular.md R105: what it still adds to the accumulator is `small · add`. -/
theorem multiplierLoop_toNat {m : Word} (hm : m ≠ 0) (n : Nat) (small acc add : Word) (hs : small.toNat < 2 ^ n)
    (hacc : acc.toNat < m.toNat) :
    (multiplierLoop m n small acc add).toNat = (acc.toNat + small.toNat * add.toNat) % m.toNat := by
  induction n generalizing small acc add with
  | zero =>
    have h0 : small.toNat = 0 := by omega
    rw [multiplierLoop, h0, Nat.zero_mul, Nat.add_zero, Nat.mod_eq_of_lt hacc]
  | succ n ih =>
    rw [multiplierLoop]
    split
    case isTrue h0 => simp [h0, Nat.mod_eq_of_lt hacc]
    case isFalse h0 =>
      have hhalf : (small >>> 1).toNat = small.toNat / 2 := by simp [BitVec.toNat_ushiftRight, Nat.shiftRight_one]
      have hacc' := accumulate_toNat small acc add hm hacc
      rw [ih _ _ _ (by rw [hhalf]; omega) (hacc' ▸ addM_lt _ _ (toNat_pos_of_ne_zero hm)), hacc', hhalf,
        adderDatapath_toNat _ _ hm, add_bit_add_halves]

/-- The whole scan from an empty accumulator multiplies. -/
theorem multiplierLoop_from_zero {m : Word} (hm : m ≠ 0) (small add : Word) :
    (multiplierLoop m 256 small 0 add).toNat = small.toNat * add.toNat % m.toNat := by
  simpa using multiplierLoop_toNat hm 256 small 0 add small.isLt (toNat_pos_of_ne_zero hm)

/-- Either operand may be scanned: the product is the same (90_conflicts.md C6). -/
theorem multiplierDatapath_toNat (a b : Word) {m : Word} (hm : m ≠ 0) :
    (multiplierDatapath a b m).toNat = mulM a.toNat b.toNat m.toNat := by
  rw [multiplierDatapath, mulM, ← BitVec.toNat_umod, ← BitVec.toNat_umod]
  split
  · exact multiplierLoop_from_zero hm _ _
  · rw [multiplierLoop_from_zero hm, Nat.mul_comm]

/-- Settles O18, by the invariant of the loop. -/
theorem multiplierDatapathIsExact : Obligations.MultiplierDatapathIsExact := fun a b _ hm =>
  ⟨multiplierDatapath_toNat a b hm, multiplierDatapath_toNat a b hm⟩

/-! ### Completion with a scalar result (60_exceptions.md R185) -/

/-- A scalar result that fits a register is a completion with that result. -/
theorem finishScalar_scalarResult (s : State) (rd : Reg) {v : Nat} (hv : v < 2 ^ 256) :
    ScalarResult s (s.finishScalar rd v) rd v where
  toSucceeded := by constructor <;> rfl
  result := by rw [x_finishScalar, if_pos rfl, BitVec.toNat_ofNat, Nat.mod_eq_of_lt hv]
  others := fun r hr => by simp [hr]
  z := rfl
  vres := rfl
  draws := rfl

/-- The destination read as an operand. -/
theorem val_of_scalarResult {s t : State} {rd : Reg} {v : Nat} (h : ScalarResult s t rd v) : t.val rd = v := h.result

section Checked

variable {s : State} {rd rm : Reg} {v : Nat}

/-- ADDM, SUBM, MULM and EXPM past their check (40_modular.md R100): a result below the modulus fits its register. -/
theorem checkedModZero_scalarResult (hm : s.val rm ≠ 0) (hv : v < s.val rm) :
    ScalarResult s (s.checkedModZero rd rm v) rd v := by
  rcases checkedModZero_cases s rd rm v with ⟨h0, -⟩ | ⟨-, e⟩
  · exact absurd h0 hm
  · rw [e]
    exact finishScalar_scalarResult s rd (hv.trans (val_lt s rm))

/-- INVM and DIVM past theirs (40_modular.md R100). -/
theorem checkedPrecondition_scalarResult (hm : 2 < s.val rm) (hv : v < s.val rm) :
    ScalarResult s (s.checkedPrecondition rd rm v) rd v := by
  rcases checkedPrecondition_cases s rd rm v with ⟨h2, -⟩ | ⟨-, e⟩
  · exact absurd hm h2.not_gt
  · rw [e]
    exact finishScalar_scalarResult s rd (hv.trans (val_lt s rm))

theorem checkedModZero_errorResult (hm : s.val rm = 0) : ErrorResult s (s.checkedModZero rd rm v) 3 := by
  rcases checkedModZero_cases s rd rm v with ⟨-, e⟩ | ⟨h0, -⟩
  · exact e ▸ raise_errorResult s .modZero
  · exact absurd hm h0

theorem checkedPrecondition_errorResult (hm : s.val rm ≤ 2) : ErrorResult s (s.checkedPrecondition rd rm v) 4 := by
  rcases checkedPrecondition_cases s rd rm v with ⟨-, e⟩ | ⟨h2, -⟩
  · exact e ▸ raise_errorResult s .precondition
  · exact absurd hm h2.not_ge

/-- A command that succeeded passed its check, so its result is below the modulus (40_modular.md R116). -/
theorem checkedModZero_val_lt (hv : 0 < s.val rm → v < s.val rm) (he : (s.checkedModZero rd rm v).err = false) :
    (s.checkedModZero rd rm v).val rd < s.val rm := by
  by_cases hm : s.val rm = 0
  · exact nomatch (checkedModZero_errorResult hm).err.symm.trans he
  · have hlt := hv (Nat.pos_of_ne_zero hm)
    exact (val_of_scalarResult (checkedModZero_scalarResult hm hlt)).trans_lt hlt

theorem checkedPrecondition_val_lt (hv : 0 < s.val rm → v < s.val rm)
    (he : (s.checkedPrecondition rd rm v).err = false) : (s.checkedPrecondition rd rm v).val rd < s.val rm := by
  by_cases hm : s.val rm ≤ 2
  · exact nomatch (checkedPrecondition_errorResult hm).err.symm.trans he
  · have hlt := hv (by omega)
    exact (val_of_scalarResult (checkedPrecondition_scalarResult (by omega) hlt)).trans_lt hlt

end Checked

/-! ### The commands of the modular unit (40_modular.md R102 to R113) -/

/-- Settles O8: addM is the exact sum. -/
theorem addmResult : Obligations.AddmResult := by
  intro rd ra rb rm s hm
  rw [← addM_eq]
  exact ⟨_, rfl, checkedModZero_scalarResult hm (addM_lt _ _ (Nat.pos_of_ne_zero hm))⟩

/-- Settles O9: subM is the exact difference, as an integer. -/
theorem submResult : Obligations.SubmResult := by
  intro rd ra rb rm s hm
  have hpos := Nat.pos_of_ne_zero hm
  exact ⟨_, _, rfl, checkedModZero_scalarResult hm (subM_lt _ _ hpos), subM_eq _ _ hpos⟩

/-- Settles O10: mulM is the exact product. -/
theorem mulmResult : Obligations.MulmResult := by
  intro rd ra rb rm s hm
  rw [← mulM_eq]
  exact ⟨_, rfl, checkedModZero_scalarResult hm (mulM_lt _ _ (Nat.pos_of_ne_zero hm))⟩

/-- Settles O11: expM is the exact power for every exponent a register holds. -/
theorem expmResult : Obligations.ExpmResult := by
  intro rd ra rb rm s hm
  have hpos := Nat.pos_of_ne_zero hm
  rw [← expM_eq _ hpos (val_lt s rb)]
  exact ⟨_, rfl, checkedModZero_scalarResult hm (expM_lt _ _ hpos)⟩

/-- Settles O12: invM is Fermat's power, which is the inverse where the modulus is prime. -/
theorem invmResult : Obligations.InvmResult := by
  intro rd ra rm s hm
  have hpos : 0 < s.val rm := by omega
  have hw := (val_lt s rm).le
  have hr := checkedPrecondition_scalarResult (rd := rd) hm (invM_lt (s.val ra) hpos)
  rw [← invM_eq _ hpos hw]
  refine ⟨_, rfl, hr, fun hp ha => ?_⟩
  rw [val_of_scalarResult hr, invM_eq _ hpos hw, Nat.mul_mod_mod, mul_pow_sub_two hp hm ha]

/-- Settles O13: divM is the product with Fermat's power, and a multiple of the modulus where the divisor is one. -/
theorem divmResult : Obligations.DivmResult := by
  intro rd ra rb rm s hm
  have hpos : 0 < s.val rm := by omega
  have hw := (val_lt s rm).le
  have hr := checkedPrecondition_scalarResult (rd := rd) hm (divM_lt (s.val ra) (s.val rb) hpos)
  rw [← divM_eq _ _ hpos hw]
  refine ⟨_, rfl, hr, fun hb => ?_⟩
  have h0 : divM (s.val ra) (s.val rb) (s.val rm) = 0 := by
    rw [divM_eq _ _ hpos hw]
    exact Nat.mod_eq_zero_of_dvd ((dvd_pow (Nat.dvd_of_mod_eq_zero hb) (by omega)).mul_left _)
  exact ⟨(val_of_scalarResult hr).trans h0, hr.z.trans (decide_eq_true h0)⟩

/-- The ROM at a legal index: the constant of 10_state.md R30, which is not 0. -/
theorem romEntry_const {k : Nat} (hk : k ≤ 4) : ∃ v, romEntry k = some v ∧ v.toNat ≠ 0 ∧ v.toNat =
    [0xFFFFFFFFFFFFFFFFFFFFFFFFFFFFFFFFFFFFFFFFFFFFFFFFFFFFFFFEFFFFFC2F,
      0xFFFFFFFFFFFFFFFFFFFFFFFFFFFFFFFEBAAEDCE6AF48A03BBFD25E8CD0364141,
      0x79BE667EF9DCBBAC55A06295CE870B07029BFCDB2DCE28D959F2815B16F81798,
      0x483ADA7726A3C4655DA4FBFC0E1108A8FD17B448A68554199C47D08FFB10D4B8, 7].getD k 0 := by
  interval_cases k <;> exact ⟨_, rfl, by decide, by decide⟩

theorem exec_ldc_of_some {rd : Reg} {k : Fin 16} {v : Word} (s : State) (h : romEntry k.val = some v) :
    exec (.ldc rd k) s = .next (s.finishScalar rd v.toNat) := by
  rw [exec, execLdc, h]

theorem exec_ldc_of_none {rd : Reg} {k : Fin 16} (s : State) (h : romEntry k.val = none) :
    exec (.ldc rd k) s = .next (s.raise .illegalOperand) := by
  rw [exec, execLdc, h]

/-- Settles O14, by the ROM's entry, or its absence. -/
theorem ldcResult : Obligations.LdcResult := by
  intro rd k s
  constructor
  · intro hk
    obtain ⟨v, hv, hne, hc⟩ := romEntry_const hk
    rw [← hc]
    exact ⟨_, exec_ldc_of_some s hv, decide_eq_false hne, finishScalar_scalarResult s rd v.isLt⟩
  · intro hk
    have hnone : romEntry k.val = none := by
      rw [← Option.not_isSome_iff_eq_none, romEntry_isSome]
      omega
    exact ⟨_, exec_ldc_of_none s hnone, raise_errorResult s .illegalOperand⟩

/-- Settles O15, by the two checks; a legal LDC has none. -/
theorem modulusChecks : Obligations.ModulusChecks := by
  intro rd ra rb rm s
  refine ⟨fun hm i hi => ?_, fun hm i hi => ?_, fun k hk => ?_⟩
  · simp only [List.mem_cons, List.not_mem_nil, or_false] at hi
    rcases hi with rfl | rfl | rfl | rfl <;> exact ⟨_, rfl, checkedModZero_errorResult hm⟩
  · simp only [List.mem_cons, List.not_mem_nil, or_false] at hi
    rcases hi with rfl | rfl <;> exact ⟨_, rfl, checkedPrecondition_errorResult hm⟩
  · obtain ⟨v, hv⟩ := Option.isSome_iff_exists.mp (romEntry_isSome.mpr hk)
    exact ⟨_, exec_ldc_of_some s hv, rfl⟩

/-! ### The laws and the bounds (40_modular.md R114, R116) -/

theorem addM_comm (a b m : Nat) : addM a b m = addM b a m := by rw [addM, Nat.add_comm, addM]

/-- Subtraction takes an addition back. -/
theorem subM_addM_cancel (a b : Nat) {m : Nat} (hm : 0 < m) : subM (addM a b m) b m = a % m := by
  zify
  rw [subM_eq _ _ hm, addM_eq]
  push_cast
  rw [Int.emod_sub_emod, add_sub_cancel_right]

/-- Multiplication takes a division back, for a prime modulus. -/
theorem mulM_divM_one {a p : Nat} (hp : p.Prime) (h2 : 2 < p) (hw : p ≤ 2 ^ 256) (ha : a % p ≠ 0) :
    mulM a (divM 1 a p) p = 1 := by
  rw [divM_eq _ _ hp.pos hw, mulM_eq, one_mul, Nat.mul_mod_mod, mul_pow_sub_two hp h2 ha]

/-- Settles O16, law by law. -/
theorem modularLaws : Obligations.ModularLaws := fun a b p hp h2 hw =>
  ⟨addM_comm a b p, subM_addM_cancel a b hp.pos, mulM_divM_one hp h2 hw.le⟩

/-- Each function reduces its operands first, so residues give the same result (40_modular.md R116). -/
theorem addM_mod (a b m : Nat) : addM (a % m) (b % m) m = addM a b m := by simp only [addM, Nat.mod_mod]

theorem subM_mod (a b m : Nat) : subM (a % m) (b % m) m = subM a b m := by simp only [subM, addM, Nat.mod_mod]

theorem mulM_mod (a b m : Nat) : mulM (a % m) (b % m) m = mulM a b m := by simp only [mulM, Nat.mod_mod]

theorem expM_mod (a e m : Nat) : expM (a % m) e m = expM a e m := by simp only [expM, Nat.mod_mod]

theorem invM_mod (a m : Nat) : invM (a % m) m = invM a m := expM_mod a _ m

theorem divM_mod (a b m : Nat) : divM (a % m) (b % m) m = divM a b m := by
  simp only [divM, mulM, expM_mod, Nat.mod_mod]

/-- Values that fit a register are equal exactly when their 256-bit values are. -/
theorem ofNat_inj_of_lt {u v : Nat} (hu : u < 2 ^ 256) (hv : v < 2 ^ 256) :
    BitVec.ofNat 256 u = BitVec.ofNat 256 v ↔ u = v := by
  rw [← BitVec.toNat_inj, BitVec.toNat_ofNat, BitVec.toNat_ofNat, Nat.mod_eq_of_lt hu, Nat.mod_eq_of_lt hv]

/-- A command of the unit that succeeded leaves a value below its modulus. -/
theorem exec_modular_val_lt {rd ra rb rm : Reg} {s t : State} {i : Instr}
    (hi : i ∈ [Instr.addm rd ra rb rm, .subm rd ra rb rm, .mulm rd ra rb rm, .expm rd ra rb rm, .invm rd ra rm,
      .divm rd ra rb rm])
    (h : exec i s = .next t) (he : t.err = false) : t.val rd < s.val rm := by
  simp only [List.mem_cons, List.not_mem_nil, or_false] at hi
  rcases hi with rfl | rfl | rfl | rfl | rfl | rfl <;> cases h
  · exact checkedModZero_val_lt (addM_lt _ _) he
  · exact checkedModZero_val_lt (subM_lt _ _) he
  · exact checkedModZero_val_lt (mulM_lt _ _) he
  · exact checkedModZero_val_lt (expM_lt _ _) he
  · exact checkedPrecondition_val_lt (invM_lt _) he
  · exact checkedPrecondition_val_lt (divM_lt _ _) he

/-- Settles O52, by the bound and the reduction of each function, and the modulus check each command passed. -/
theorem modularResultsAreReduced : Obligations.ModularResultsAreReduced := by
  refine ⟨fun a b e m hm v hv => ?_, fun a b e m => ?_, fun u v m hm hu hv => ?_, ?_⟩
  · simp only [List.mem_cons, List.not_mem_nil, or_false] at hv
    rcases hv with rfl | rfl | rfl | rfl | rfl | rfl
    · exact addM_lt _ _ hm
    · exact subM_lt _ _ hm
    · exact mulM_lt _ _ hm
    · exact expM_lt _ _ hm
    · exact invM_lt _ hm
    · exact divM_lt _ _ hm
  · exact ⟨addM_mod a b m, subM_mod a b m, mulM_mod a b m, expM_mod a e m, invM_mod a m, divM_mod a b m⟩
  · exact ofNat_inj_of_lt (hu.trans hm) (hv.trans hm)
  · exact fun rd ra rb rm s t i => exec_modular_val_lt

end Sys2Proof.Machine
end

section
/-! PROOFS. The statements of 41_curve.md: what PADD, PDBL, SMUL and PUBK complete with, on or off the curve, and that on
points of the curve they compute in Mathlib's group of y² = x³ + 7. -/

namespace Sys2Proof.Machine

open Sys2Proof.Claims

/-! ### The branches of `pdbl` and `padd` (41_curve.md R132, R135) -/

/-- The branch y = 0, which the identity itself takes too. -/
theorem pdbl_of_y_eq_zero {p : Point} (h : p.y = 0) : pdbl p = identity := by
  rw [pdbl, if_pos h, ite_self]

theorem pdbl_of_y_ne_zero {p : Point} (h : p.y ≠ 0) :
    pdbl p = chord (fdiv (fmul 3 (fmul p.x p.x)) (fadd p.y p.y)) p.x p.y p.x := by
  simp [pdbl, isId, h]

@[simp] theorem pdbl_identity : pdbl identity = identity := pdbl_of_y_eq_zero rfl

@[simp] theorem padd_identity_left (q : Point) : padd identity q = q := rfl

@[simp] theorem padd_identity_right (p : Point) : padd p identity = p := by
  by_cases hp : p = identity
  · rw [hp, padd_identity_left]
  · rw [padd, if_neg (mt (isId_iff p).mp hp), if_pos ((isId_iff _).mpr rfl)]

section Branches

variable {p q : Point}

theorem point_eq_iff : p = q ↔ p.x = q.x ∧ p.y = q.y := by
  cases p
  cases q
  simp

variable (hp : p ≠ identity) (hq : q ≠ identity)
include hp

theorem padd_self : padd p p = pdbl p := by
  simp [padd, isId_iff, hp]

include hq

theorem padd_of_x_eq (hne : p ≠ q) (hx : p.x = q.x) : padd p q = identity := by
  have hy : ¬ (p.x = q.x ∧ p.y = q.y) := mt point_eq_iff.mpr hne
  rw [padd, if_neg (mt (isId_iff p).mp hp), if_neg (mt (isId_iff q).mp hq), if_neg hy, if_pos hx]

theorem padd_of_x_ne (hx : p.x ≠ q.x) :
    padd p q = chord (fdiv (fsub q.y p.y) (fsub q.x p.x)) p.x p.y q.x := by
  simp [padd, isId_iff, hp, hq, hx]

end Branches

/-! ### The formulas, read in the field of P (41_curve.md R132, R135) -/

/-- P is odd. -/
theorem two_mul_cast_ne_zero {y : Nat} (hy : y < fieldPrime) (h : y ≠ 0) : 2 * (y : ZMod fieldPrime) ≠ 0 := by
  have := Fact.mk fieldPrime_prime
  exact mul_ne_zero (cast_ne_zero (a := 2) (by decide) (by decide)) (cast_ne_zero hy h)

/-- The tangent's slope, the divisor 2y not being 0. -/
theorem pdbl_isDouble {p : Point} (hp : p.Reduced) : IsDouble p (pdbl p) := by
  have := Fact.mk fieldPrime_prime
  refine ⟨(pdbl_reduced p).x_lt, (pdbl_reduced p).y_lt, ?_⟩
  split
  case isTrue h => exact pdbl_of_y_eq_zero (h.elim (fun h => by rw [h]) id)
  case isFalse h =>
    have hy : p.y ≠ 0 := fun h0 => h (.inr h0)
    have hsum : (fadd p.y p.y : ZMod fieldPrime) = 2 * p.y := by rw [fadd_cast, two_mul]
    have hdiv := two_mul_cast_ne_zero hp.y_lt hy
    rw [pdbl_of_y_ne_zero hy]
    obtain ⟨hx3, hy3⟩ := chord_cast (fdiv (fmul 3 (fmul p.x p.x)) (fadd p.y p.y)) p.x p.y p.x
    refine ⟨_, ?_, hx3.trans (by ring), hy3⟩
    rw [fdiv_cast _ (hsum ▸ hdiv), hsum, div_mul_cancel₀ _ hdiv, fmul_cast, fmul_cast, pow_two, Nat.cast_ofNat]

/-- The chord's slope, the divisor x2 − x1 not being 0. -/
theorem padd_isSum {p q : Point} (hp : p.Reduced) (hq : q.Reduced) : IsSum p q (padd p q) := by
  have := Fact.mk fieldPrime_prime
  refine ⟨(padd_reduced hp hq).x_lt, (padd_reduced hp hq).y_lt, ?_⟩
  split_ifs with hpO hqO hpq hx
  · rw [hpO]; rfl
  · rw [hqO]; exact padd_identity_right p
  · subst hpq
    rw [padd_self hpO]
    exact pdbl_isDouble hp
  · exact padd_of_x_eq hpO hqO hpq hx
  · have hdiv : (fsub q.x p.x : ZMod fieldPrime) ≠ 0 := by
      rw [fsub_cast, sub_ne_zero, Ne, cast_eq_cast hq.x_lt hp.x_lt]
      exact Ne.symm hx
    rw [padd_of_x_ne hpO hqO hx]
    obtain ⟨hx3, hy3⟩ := chord_cast (fdiv (fsub q.y p.y) (fsub q.x p.x)) p.x p.y q.x
    refine ⟨_, ?_, hx3, hy3⟩
    rw [← fsub_cast, fdiv_cast _ hdiv, div_mul_cancel₀ _ hdiv, fsub_cast]

/-! ### Completion with a point (41_curve.md R133, R136, R139, R141) -/

theorem point_reduced (s : State) (i : Reg) : (s.point i).Reduced := reducePoint_reduced _ _

/-- A reduced point is a completion with that point. -/
theorem finishPoint_pairResult (s : State) (rd : Reg) {p : Point} (hp : p.Reduced) :
    PairResult s (s.finishPoint rd p) rd p.x p.y where
  toSucceeded := by constructor <;> rfl
  resultX := by
    rw [x_finishPoint, if_neg (ne_pairY rd), if_pos rfl, BitVec.toNat_ofNat, Nat.mod_eq_of_lt hp.lt_word.1]
  resultY := by
    change ((s.finishPoint rd p).x (pairY rd)).toNat = p.y
    rw [x_finishPoint, if_pos rfl, BitVec.toNat_ofNat, Nat.mod_eq_of_lt hp.lt_word.2]
  others := fun r hx hy => (x_finishPoint s rd r p).trans ((if_neg hy).trans (if_neg hx))
  z := (Bool.decide_and _ _).symm
  vres := rfl
  draws := rfl

/-- The destination pair read as a point operand. -/
theorem pointAt_of_pairResult {s t : State} {rd : Reg} {r : Point} (h : PairResult s t rd r.x r.y) (hr : r.Reduced) :
    pointAt t rd = r := by
  rw [pointAt, State.val, State.val, h.resultX, h.resultY]
  exact reducePoint_of_reduced hr

/-- Settles O19, by the branches of `padd`. -/
theorem paddResult : Obligations.PaddResult := fun rd ra rb s _ _ _ =>
  ⟨_, padd (s.point ra) (s.point rb), rfl, padd_isSum (point_reduced s ra) (point_reduced s rb),
    finishPoint_pairResult s rd (padd_reduced (point_reduced s ra) (point_reduced s rb))⟩

/-- Settles O20, by the branches of `pdbl`. -/
theorem pdblResult : Obligations.PdblResult := fun rd ra s _ _ =>
  ⟨_, pdbl (s.point ra), rfl, pdbl_isDouble (point_reduced s ra), finishPoint_pairResult s rd (pdbl_reduced _)⟩

/-! ### The scan of the scalar (41_curve.md R138) -/

/-- One position of the scan: the conditional add, then the doubling. -/
def scanStep (k : Nat) (a : Point × Point) (i : Nat) : Point × Point :=
  (if k.testBit i then padd a.1 a.2 else a.1, pdbl a.2)

theorem scanBits_eq_foldl (k : Nat) (p : Point) :
    scanBits k p = ((List.range 256).foldl (scanStep k) (identity, p)).1 := rfl

/-- Position 0 is the lowest bit, and the later positions scan the halved scalar. -/
theorem scanStep_zero (k : Nat) (acc add : Point) :
    scanStep k (acc, add) 0 = (if k % 2 = 1 then padd acc add else acc, pdbl add) := by
  simp [scanStep]

theorem scanStep_succ (k i : Nat) (a : Point × Point) : scanStep k a (i + 1) = scanStep (k / 2) a i := by
  simp [scanStep, Nat.testBit_succ]

/-- The loop over a halving scalar is the fold over its bit positions. -/
theorem smulLoop_eq_foldl (n k : Nat) (acc add : Point) :
    smulLoop n k acc add = ((List.range n).foldl (scanStep k) (acc, add)).1 := by
  induction n generalizing k acc add with
  | zero => rfl
  | succ n ih =>
    rw [smulLoop, ih, List.range_succ_eq_map, List.foldl_cons, List.foldl_map, scanStep_zero]
    simp only [scanStep_succ]

theorem smul_eq_scanBits (k : Nat) {p : Point} (hp : p.Reduced) : smul k p = scanBits k p := by
  rw [smul, reducePoint_of_reduced hp, smulLoop_eq_foldl, scanBits_eq_foldl]

/-- Settles O21, by the fold over the bit positions. -/
theorem smulAndPubkResult : Obligations.SmulAndPubkResult := fun rd ra rb s _ =>
  ⟨fun _ => ⟨_, smul (s.val ra) (s.point rb), rfl, smul_eq_scanBits _ (point_reduced s rb), (smul_reduced _ _).x_lt,
      (smul_reduced _ _).y_lt, finishPoint_pairResult s rd (smul_reduced _ _)⟩,
    _, smul (s.val ra) generator, rfl, smul_eq_scanBits _ generator_reduced, (smul_reduced _ _).x_lt,
      (smul_reduced _ _).y_lt, finishPoint_pairResult s rd (smul_reduced _ _)⟩

/-! ### Points of the curve and the pairs that denote them (10_state.md R22) -/

theorem equation_curve_iff {x y : ZMod fieldPrime} : curve.Equation x y ↔ y ^ 2 = x ^ 3 + 7 := by
  simp [WeierstrassCurve.Affine.equation_iff, curve]

theorem negY_curve (x y : ZMod fieldPrime) : curve.negY x y = -y := by
  simp [curve]

theorem sub_negY_curve (x y : ZMod fieldPrime) : y - curve.negY x y = 2 * y := by
  rw [negY_curve]
  ring

/-- A point with y not 0 is not its own negative. -/
theorem cast_ne_negY (x : ZMod fieldPrime) {y : Nat} (hy : y < fieldPrime) (h : y ≠ 0) :
    (y : ZMod fieldPrime) ≠ curve.negY x y := by
  rw [← sub_ne_zero, sub_negY_curve]
  exact two_mul_cast_ne_zero hy h

/-- (0, 0) does not satisfy y² = x³ + 7. -/
theorem not_equation_zero_zero : ¬ curve.Equation 0 0 := by
  have h7 : (7 : ZMod fieldPrime) ≠ 0 := cast_ne_zero (a := 7) (by decide) (by decide)
  rw [equation_curve_iff]
  simpa using h7.symm

theorem reduced_of_denotes {p : Point} {A : curve.Point} (h : Denotes p A) : p.Reduced := by
  cases A with
  | zero => cases h; exact identity_reduced
  | some x y hc =>
    obtain ⟨hx, hy, -, -⟩ := h
    exact ⟨hx, hy⟩

/-- A pair that satisfies the equation, with y not 0, denotes a point. -/
theorem exists_denotes {p : Point} (hp : p.Reduced) (hy : p.y ≠ 0)
    (he : p.y ^ 2 % fieldPrime = (p.x ^ 3 + 7) % fieldPrime) : ∃ A, Denotes p A := by
  have heq : curve.Equation p.x p.y := by
    rw [equation_curve_iff]
    exact_mod_cast (ZMod.natCast_eq_natCast_iff' _ _ _).mpr he
  exact ⟨.some _ _ ((WeierstrassCurve.Affine.nonsingular_iff ..).mpr ⟨heq, .inr (cast_ne_negY _ hp.y_lt hy)⟩),
    hp.x_lt, hp.y_lt, rfl, rfl⟩

theorem generator_denotes : ∃ G, Denotes generator G :=
  exists_denotes generator_reduced (by decide) (by decide)

/-- Only one pair denotes a point. -/
theorem eq_of_denotes {p q : Point} {A : curve.Point} (hp : Denotes p A) (hq : Denotes q A) : p = q := by
  cases A with
  | zero => exact Eq.trans hp (Eq.symm hq)
  | some x y hc =>
    obtain ⟨hpx, hpy, hpx', hpy'⟩ := hp
    obtain ⟨hqx, hqy, hqx', hqy'⟩ := hq
    exact point_eq_iff.mpr ⟨(cast_eq_cast hpx hqx).mp (hpx'.trans hqx'.symm),
      (cast_eq_cast hpy hqy).mp (hpy'.trans hqy'.symm)⟩

/-- Any pair but (0, 0) denotes the point with its own coordinates. -/
theorem exists_some_of_denotes {p : Point} {A : curve.Point} (h : Denotes p A) (hp : p ≠ identity) :
    ∃ hc : curve.Nonsingular p.x p.y, A = .some _ _ hc := by
  cases A with
  | zero => exact absurd h hp
  | some x y hc =>
    obtain ⟨-, -, rfl, rfl⟩ := h
    exact ⟨hc, rfl⟩

theorem identity_denotes : Denotes identity (0 : curve.Point) := rfl

/-- The identity pair denotes the point at infinity alone. -/
theorem eq_zero_of_identity_denotes {A : curve.Point} (h : Denotes identity A) : A = 0 := by
  cases A with
  | zero => rfl
  | some x y hc =>
    obtain ⟨-, -, rfl, rfl⟩ := h
    exact absurd (by simpa [identity] using hc.1) not_equation_zero_zero

/-- A pair denotes one point. -/
theorem eq_of_denotes_right {p : Point} {A B : curve.Point} (hA : Denotes p A) (hB : Denotes p B) : A = B := by
  by_cases hp : p = identity
  · subst hp
    rw [eq_zero_of_identity_denotes hA, eq_zero_of_identity_denotes hB]
  · obtain ⟨_, rfl⟩ := exists_some_of_denotes hA hp
    obtain ⟨_, rfl⟩ := exists_some_of_denotes hB hp
    rfl

/-- A completion with a pair that denotes a point leaves a pair that denotes it. -/
theorem pointAt_denotes_of_pairResult {s t : State} {rd : Reg} {r : Point} {A : curve.Point}
    (h : PairResult s t rd r.x r.y) (hr : Denotes r A) : Denotes (pointAt t rd) A := by
  rwa [pointAt_of_pairResult h (reduced_of_denotes hr)]

section Group

variable [Fact fieldPrime.Prime] {p q r : Point} {A B : curve.Point}

/-- The formulas x3 = λ² − x1 − x2 and y3 = λ(x1 − x3) − y1 are the group's, for the group's own λ. -/
theorem denotes_add_of_slope {x1 y1 x2 y2 : ZMod fieldPrime} {h1 : curve.Nonsingular x1 y1}
    {h2 : curve.Nonsingular x2 y2} (hne : ¬ (x1 = x2 ∧ y1 = curve.negY x2 y2)) (hr : r.Reduced)
    (hx : (r.x : ZMod fieldPrime) = curve.slope x1 x2 y1 y2 ^ 2 - x1 - x2)
    (hy : (r.y : ZMod fieldPrime) = curve.slope x1 x2 y1 y2 * (x1 - r.x) - y1) :
    Denotes r (WeierstrassCurve.Affine.Point.some _ _ h1 + .some _ _ h2) := by
  have hadd : (r.x : ZMod fieldPrime) = curve.addX x1 x2 (curve.slope x1 x2 y1 y2) := by
    rw [hx, WeierstrassCurve.Affine.addX]
    simp [curve]
  rw [WeierstrassCurve.Affine.Point.add_some hne]
  refine ⟨hr.x_lt, hr.y_lt, hadd, ?_⟩
  rw [hy, WeierstrassCurve.Affine.addY, negY_curve, WeierstrassCurve.Affine.negAddY, ← hadd]
  ring

/-- The tangent formula is the group's (41_curve.md R135). -/
theorem denotes_add_self_of_isDouble (hp : Denotes p A) (h : IsDouble p r) : Denotes r (A + A) := by
  obtain ⟨hrx, hry, h⟩ := h
  rcases eq_or_ne p identity with rfl | hpO
  · rw [if_pos (.inl rfl)] at h
    rw [eq_zero_of_identity_denotes hp, add_zero, h]
    exact identity_denotes
  have hpy := (reduced_of_denotes hp).y_lt
  obtain ⟨hc, rfl⟩ := exists_some_of_denotes hp hpO
  by_cases hy : p.y = 0
  · rw [if_pos (.inr hy)] at h
    rw [WeierstrassCurve.Affine.Point.add_self_of_Y_eq (by rw [negY_curve, hy, Nat.cast_zero, neg_zero]), h]
    exact identity_denotes
  · rw [if_neg (by rintro (h0 | h0); exacts [hpO h0, hy h0])] at h
    obtain ⟨l, hl, hx3, hy3⟩ := h
    have hne := cast_ne_negY p.x hpy hy
    have hslope : curve.slope p.x p.x p.y p.y = l := by
      rw [WeierstrassCurve.Affine.slope_of_Y_ne rfl hne, sub_negY_curve, div_eq_iff (two_mul_cast_ne_zero hpy hy), hl]
      simp [curve]
    exact denotes_add_of_slope (fun hxy => hne hxy.2) ⟨hrx, hry⟩ (by rw [hslope, hx3]; ring) (by rw [hslope, hy3])

/-- Every branch of the sum is the group's (41_curve.md R132). -/
theorem denotes_add_of_isSum (hp : Denotes p A) (hq : Denotes q B) (h : IsSum p q r) : Denotes r (A + B) := by
  obtain ⟨hrx, hry, h⟩ := h
  have hpr := reduced_of_denotes hp
  have hqr := reduced_of_denotes hq
  split_ifs at h with hpO hqO hpq hx
  · subst hpO h
    rwa [eq_zero_of_identity_denotes hp, zero_add]
  · subst hqO h
    rwa [eq_zero_of_identity_denotes hq, add_zero]
  · subst hpq
    rw [← eq_of_denotes_right hp hq]
    exact denotes_add_self_of_isDouble hp h
  · obtain ⟨hpc, rfl⟩ := exists_some_of_denotes hp hpO
    obtain ⟨hqc, rfl⟩ := exists_some_of_denotes hq hqO
    have hxc : (p.x : ZMod fieldPrime) = q.x := congrArg _ hx
    have hyc : (p.y : ZMod fieldPrime) ≠ q.y := fun hy =>
      hpq (point_eq_iff.mpr ⟨hx, (cast_eq_cast hpr.y_lt hqr.y_lt).mp hy⟩)
    have hneg := (WeierstrassCurve.Affine.Y_eq_of_X_eq hpc.1 hqc.1 hxc).resolve_left hyc
    rw [WeierstrassCurve.Affine.Point.add_of_Y_eq hxc hneg, h]
    exact identity_denotes
  · obtain ⟨hpc, rfl⟩ := exists_some_of_denotes hp hpO
    obtain ⟨hqc, rfl⟩ := exists_some_of_denotes hq hqO
    obtain ⟨l, hl, hx3, hy3⟩ := h
    have hxc : (p.x : ZMod fieldPrime) ≠ q.x := mt (cast_eq_cast hpr.x_lt hqr.x_lt).mp hx
    have hslope : curve.slope p.x q.x p.y q.y = l := by
      rw [WeierstrassCurve.Affine.slope_of_X_ne hxc, div_eq_iff (sub_ne_zero.mpr hxc)]
      linear_combination hl
    exact denotes_add_of_slope (fun hxy => hxc hxy.1) ⟨hrx, hry⟩ (by rw [hslope, hx3]) (by rw [hslope, hy3])

theorem pdbl_denotes (hp : Denotes p A) : Denotes (pdbl p) (A + A) :=
  denotes_add_self_of_isDouble hp (pdbl_isDouble (reduced_of_denotes hp))

theorem padd_denotes (hp : Denotes p A) (hq : Denotes q B) : Denotes (padd p q) (A + B) :=
  denotes_add_of_isSum hp hq (padd_isSum (reduced_of_denotes hp) (reduced_of_denotes hq))

/-- What the loop of 41_curve.md R138 still adds to the accumulator is k times the point it doubles. -/
theorem smulLoop_denotes (n k : Nat) (hk : k < 2 ^ n) (hq : Denotes q B) (hp : Denotes p A) :
    Denotes (smulLoop n k q p) (B + k • A) := by
  induction n generalizing k q p A B with
  | zero =>
    obtain rfl : k = 0 := by simpa using hk
    rwa [zero_nsmul, add_zero]
  | succ n ih =>
    have hbit : Denotes (if k % 2 = 1 then padd q p else q) (B + (k % 2) • A) := by
      rcases Nat.mod_two_eq_zero_or_one k with h | h
      · simpa [h] using hq
      · simpa [h] using padd_denotes hq hp
    have hsum : B + k • A = B + (k % 2) • A + (k / 2) • (A + A) := by
      rw [add_assoc, ← two_nsmul, ← mul_nsmul, ← add_nsmul, Nat.mod_add_div]
    rw [smulLoop, hsum]
    exact ih (k / 2) (by rw [pow_succ] at hk; omega) hbit (pdbl_denotes hp)

theorem smul_denotes {k : Nat} (hk : k < 2 ^ 256) (hp : Denotes p A) : Denotes (smul k p) (k • A) := by
  rw [smul, reducePoint_of_reduced (reduced_of_denotes hp), ← zero_add (k • A)]
  exact smulLoop_denotes 256 k hk identity_denotes hp

end Group

/-- Settles O23: the completions of O19 and O20, and the formulas as the group's. -/
theorem paddAndPdblAreTheGroupLaw : Obligations.PaddAndPdblAreTheGroupLaw := by
  intro _ rd ra rb s A B hrd hra hrb hA hB
  obtain ⟨t, r, ht, hsum, hr⟩ := paddResult rd ra rb s hrd hra hrb
  obtain ⟨u, d, hu, hdbl, hd⟩ := pdblResult rd ra s hrd hra
  exact ⟨⟨t, ht, pointAt_denotes_of_pairResult hr (denotes_add_of_isSum hA hB hsum)⟩,
    u, hu, pointAt_denotes_of_pairResult hd (denotes_add_self_of_isDouble hA hdbl)⟩

/-- Settles O24: the completions of O21, and the loop as the group's multiple. -/
theorem smulAndPubkAreGroupMultiples : Obligations.SmulAndPubkAreGroupMultiples := by
  intro _ rd ra rb s A G hrd hrb hA hG
  obtain ⟨hsmul, hpubk⟩ := smulAndPubkResult rd ra rb s hrd
  obtain ⟨t, r, ht, hscan, -, -, hr⟩ := hsmul hrb
  obtain ⟨u, g, hu, hscanG, -, -, hg⟩ := hpubk
  rw [← smul_eq_scanBits _ (reduced_of_denotes hA)] at hscan
  have hscanG' : g = smul (s.val ra) generator := hscanG.trans (smul_eq_scanBits _ generator_reduced).symm
  subst hscan hscanG'
  exact ⟨⟨t, ht, pointAt_denotes_of_pairResult hr (smul_denotes (val_lt s ra) hA)⟩,
    u, hu, pointAt_denotes_of_pairResult hg (smul_denotes (val_lt s ra) hG)⟩

/-! ### The identities of scalar multiplication (41_curve.md R140) -/

/-- No bit is left to add. -/
theorem smulLoop_zero_scalar (n : Nat) (acc add : Point) : smulLoop n 0 acc add = acc := by
  induction n generalizing add with
  | zero => rfl
  | succ n ih => exact ih _

theorem smulLoop_one_scalar (n : Nat) (acc add : Point) : smulLoop (n + 1) 1 acc add = padd acc add :=
  smulLoop_zero_scalar n _ _

theorem smulLoop_identity (n k : Nat) : smulLoop n k identity identity = identity := by
  induction n generalizing k with
  | zero => rfl
  | succ n ih => rw [smulLoop, pdbl_identity, padd_identity_left, ite_self, ih]

theorem smul_zero_scalar (p : Point) : smul 0 p = identity := smulLoop_zero_scalar 256 _ _

theorem smul_one_scalar (p : Point) : smul 1 p = reducePoint p.x p.y := smulLoop_one_scalar 255 _ _

theorem smul_identity (k : Nat) : smul k identity = identity := smulLoop_identity 256 k

/-- Where n·p = O, a multiple of p depends on its scalar modulo n alone. -/
theorem smul_mod_of_smul_eq_identity {n k : Nat} {p : Point} {A : curve.Point} (hp : Denotes p A) (hn : n < 2 ^ 256)
    (hO : smul n p = identity) (hk : k < 2 ^ 256) : smul k p = smul (k % n) p := by
  have := Fact.mk fieldPrime_prime
  have hnA : n • A = 0 := eq_zero_of_identity_denotes (hO ▸ smul_denotes hn hp)
  have hmod : Denotes (smul (k % n) p) ((k % n) • A) := smul_denotes ((Nat.mod_le _ _).trans_lt hk) hp
  rw [← nsmul_eq_mod_nsmul k hnA] at hmod
  exact eq_of_denotes (smul_denotes hk hp) hmod

/-- N·G = O, by running the loop. -/
theorem smul_groupOrder_generator : smul groupOrder generator = identity := by decide +kernel

/-- Settles O22: the loop on a scalar of 0 or 1 and on the identity, N·G by running it, and the group for the rest. -/
theorem smulIdentities : Obligations.SmulIdentities :=
  ⟨fun p => ⟨smul_zero_scalar p, smul_one_scalar p⟩, smul_identity, smul_groupOrder_generator,
    fun _ => generator_denotes.elim fun _ hG =>
      smul_mod_of_smul_eq_identity hG (by decide) smul_groupOrder_generator⟩

end Sys2Proof.Machine
end

section
/-! PROOFS. The statements of 42_ecdsa.md: what SIGN and VERIFY complete with, and that VERIFY accepts every signature
SIGN completes with. -/

namespace Sys2Proof.Machine

open Sys2Proof.Claims

/-! ### One pass of the signing loop (42_ecdsa.md R161) -/

/-- The second half of a signature, the model's operations written out. -/
theorem divM_addM_mulM_eq (z d k r : Nat) : divM (addM (mulM r d groupOrder) z groupOrder) k groupOrder =
    (r * d + z) * k ^ (groupOrder - 2) % groupOrder := by
  rw [divM_eq _ _ groupOrder_pos (by decide), addM_eq, mulM_eq, Nat.mod_add_mod, Nat.mod_mul_mod]

/-- A pass answers a signature exactly when the nonce passes every guard and gives it. -/
theorem signWith_eq_some_iff {z d k r sv : Nat} : signWith z d k = some (r, sv) ↔ NonceGives z d k r sv := by
  constructor
  · intro h
    obtain ⟨⟨hk0, hk⟩, hr, hr0, hs, hs0⟩ := signWith_some h
    exact ⟨Nat.pos_of_ne_zero hk0, hk, hr, hr0, hs.trans (divM_addM_mulM_eq z d k r), hs0⟩
  · rintro ⟨hk0, hk, rfl, hr0, rfl, hs0⟩
    rw [← divM_addM_mulM_eq] at hs0 ⊢
    have hguard : ¬ (k = 0 ∨ groupOrder ≤ k) := by omega
    simp only [signWith, if_neg hguard, if_neg hr0, if_neg hs0]

/-- A pass draws again exactly when the nonce fails a guard. -/
theorem signWith_eq_none_iff {z d k : Nat} : signWith z d k = none ↔ NonceRejected z d k := by
  simp only [Option.eq_none_iff_forall_ne_some, Prod.forall, Ne, signWith_eq_some_iff, NonceRejected]

/-! ### SIGN completes, or waits (42_ecdsa.md R162, R163) -/

section Sign

variable {rd ra rb : Reg} {s : State}

theorem exec_sign_of_some {rs : Nat × Nat} {rest : List Word}
    (h : signLoop (s.val ra) (s.val rb) s.draws = some (rs, rest)) :
    exec (.sign rd ra rb) s = .next (s.finishSignature rd rs.1 rs.2 rest) := by
  rw [exec, execSign, h]

theorem exec_sign_of_none (h : signLoop (s.val ra) (s.val rb) s.draws = none) :
    exec (.sign rd ra rb) s = .next s := by
  rw [exec, execSign, h]

/-- Values that fit a register are a completion with that signature. -/
theorem finishSignature_signatureResult (s : State) (rd : Reg) {r sv : Nat} (rest : List Word) (hr : r < 2 ^ 256)
    (hs : sv < 2 ^ 256) : SignatureResult s (s.finishSignature rd r sv rest) rd r sv rest where
  toSucceeded := by constructor <;> rfl
  resultR := by rw [x_finishSignature, if_neg (ne_pairY rd), if_pos rfl, BitVec.toNat_ofNat, Nat.mod_eq_of_lt hr]
  resultS := by
    change ((s.finishSignature rd r sv rest).x (pairY rd)).toNat = sv
    rw [x_finishSignature, if_pos rfl, BitVec.toNat_ofNat, Nat.mod_eq_of_lt hs]
  others := fun q hx hy => (x_finishSignature s rd q r sv rest).trans ((if_neg hy).trans (if_neg hx))
  z := rfl
  vres := rfl
  draws := rfl

/-- Both halves of a signature lie in [1, N-1] (42_ecdsa.md R161). -/
theorem range_of_nonceGives {z d k r sv : Nat} (h : NonceGives z d k r sv) :
    (0 < r ∧ r < groupOrder) ∧ 0 < sv ∧ sv < groupOrder := by
  obtain ⟨-, -, rfl, hr0, rfl, hs0⟩ := h
  exact ⟨⟨Nat.pos_of_ne_zero hr0, Nat.mod_lt _ groupOrder_pos⟩, Nat.pos_of_ne_zero hs0, Nat.mod_lt _ groupOrder_pos⟩

theorem signatureResult_of_nonceGives {z d k r sv : Nat} (h : NonceGives z d k r sv) (s : State) (rd : Reg)
    (rest : List Word) : SignatureResult s (s.finishSignature rd r sv rest) rd r sv rest := by
  have hN : groupOrder < 2 ^ 256 := by decide
  obtain ⟨⟨-, hr⟩, -, hs⟩ := range_of_nonceGives h
  exact finishSignature_signatureResult s rd rest (hr.trans hN) (hs.trans hN)

/-- A SIGN in flight that is over has written the signature some draw gives. -/
theorem nonceGives_of_exec_sign {t : State} (hs : s.busy = true) (h : exec (.sign rd ra rb) s = .next t)
    (ht : t.busy = false) : ∃ k, NonceGives (s.val ra) (s.val rb) k (t.val rd) (t.val (rd + 1)) := by
  cases hl : signLoop (s.val ra) (s.val rb) s.draws with
  | none =>
    cases (exec_sign_of_none hl).symm.trans h
    rw [hs] at ht
    cases ht
  | some out =>
    obtain ⟨⟨r, sv⟩, rest⟩ := out
    cases (exec_sign_of_some hl).symm.trans h
    obtain ⟨-, k, -, -, hk⟩ := signLoop_some hl
    have hg := signWith_eq_some_iff.mp hk
    have hres := signatureResult_of_nonceGives hg s rd rest
    have hr : (s.finishSignature rd r sv rest).val rd = r := hres.resultR
    have hsv : (s.finishSignature rd r sv rest).val (rd + 1) = sv := hres.resultS
    exact ⟨k.toNat, by rwa [hr, hsv]⟩

end Sign

/-- Settles O25, by the loop on the rejected draws and then the usable one. -/
theorem signResult : Obligations.SignResult := by
  intro rd ra rb s rejected rest k r sv _ hd hrej hg
  have hl : signLoop (s.val ra) (s.val rb) s.draws = some ((r, sv), rest) := by
    rw [hd]
    exact signLoop_append (fun j hj => signWith_eq_none_iff.mpr (hrej j hj)) (signWith_eq_some_iff.mpr hg)
  obtain ⟨⟨hr0, hr⟩, hs0, hs⟩ := range_of_nonceGives hg
  exact ⟨_, exec_sign_of_some hl, signatureResult_of_nonceGives hg s rd rest, hr0, Nat.le_sub_one_of_lt hr, hs0,
    Nat.le_sub_one_of_lt hs⟩

/-- Settles O26: a loop that ended would have found a usable draw. -/
theorem signWaitsForAUsableNonce : Obligations.SignWaitsForAUsableNonce := by
  intro rd ra rb s hrej
  apply exec_sign_of_none
  rw [Option.eq_none_iff_forall_ne_some]
  rintro ⟨⟨r, sv⟩, rest⟩ hl
  obtain ⟨rejected, k, hd, -, hk⟩ := signLoop_some hl
  exact hrej k (by simp [hd]) r sv (signWith_eq_some_iff.mp hk)

/-! ### VERIFY completes with the test of R164 (42_ecdsa.md R164 to R166) -/

/-- Settles O27: the completion writes VRES alone, by the test of R164. -/
theorem verifyResult : Obligations.VerifyResult := fun ra rb rm s _ _ =>
  ⟨_, rfl, by constructor <;> rfl, fun _ => rfl, rfl, rfl, verifySig_iff (s.val ra) _ _ (s.val rm) _⟩

/-- Settles O28: the completion of O27, and a signature the test accepts is in range. -/
theorem invalidSignatureIsFalse : Obligations.InvalidSignatureIsFalse := by
  intro ra rb rm s hrb hrm
  obtain ⟨t, ht, hsucc, -, -, -, hv⟩ := verifyResult ra rb rm s hrb hrm
  refine ⟨t, ht, hsucc.err, hsucc.errcode, fun hbad => ?_⟩
  rw [← Bool.not_eq_true, hv]
  rintro ⟨hr0, hr, hs0, hs, -⟩
  omega

/-! ### A signature verifies (42_ecdsa.md R167) -/

theorem cast_groupOrder_ne_zero {a : Nat} (h0 : 0 < a) (h : a < groupOrder) : (a : ZMod groupOrder) ≠ 0 := fun he =>
  Nat.not_dvd_of_pos_of_lt h0 h ((ZMod.natCast_eq_zero_iff _ _).mp he)

/-- Reading s = (r·d + z)/k modulo N backwards: with w = 1/s, the scalars of the test add up to the nonce. -/
theorem nonce_of_scalars {z d k r sv w : Nat} (hg : NonceGives z d k r sv)
    (hw : w = sv ^ (groupOrder - 2) % groupOrder) :
    (z * w % groupOrder + r * w % groupOrder * d) % groupOrder = k := by
  have := Fact.mk groupOrder_prime
  obtain ⟨-, hs0, hs⟩ := range_of_nonceGives hg
  obtain ⟨hk0, hk, -, -, hsv, -⟩ := hg
  have hkN : (k : ZMod groupOrder) ≠ 0 := cast_groupOrder_ne_zero hk0 hk
  have hsN : (sv : ZMod groupOrder) ≠ 0 := cast_groupOrder_ne_zero hs0 hs
  have hwc : (w : ZMod groupOrder) = (sv : ZMod groupOrder)⁻¹ := by
    rw [hw, ZMod.natCast_mod, Nat.cast_pow, pow_sub_two (by decide) hsN]
  have hsc : (sv : ZMod groupOrder) * k = r * d + z := by
    conv_lhs => rw [hsv]
    rw [ZMod.natCast_mod, Nat.cast_mul, Nat.cast_pow, pow_sub_two (by decide) hkN, inv_mul_cancel_right₀ hkN]
    push_cast
    rfl
  refine Eq.trans ((ZMod.natCast_eq_natCast_iff' _ _ _).mp ?_) (Nat.mod_eq_of_lt hk)
  calc ((z * w % groupOrder + r * w % groupOrder * d : Nat) : ZMod groupOrder)
      = (r * d + z) * w := by
        rw [Nat.cast_add, Nat.cast_mul _ d, ZMod.natCast_mod, ZMod.natCast_mod]
        push_cast
        ring
    _ = k := by rw [← hsc, hwc, mul_right_comm, mul_inv_cancel₀ hsN, one_mul]

/-- Where n·p = O, the sum of a·p and b·(d·p) is the multiple of p by a + b·d modulo n. -/
theorem padd_smul_smul {n a b d : Nat} {p : Point} {A : curve.Point} (hp : Denotes p A) (hn0 : 0 < n)
    (hn : n < 2 ^ 256) (hO : smul n p = identity) (ha : a < 2 ^ 256) (hb : b < 2 ^ 256) (hd : d < 2 ^ 256) :
    padd (smul a p) (smul b (smul d p)) = smul ((a + b * d) % n) p := by
  have := Fact.mk fieldPrime_prime
  have hnA : n • A = 0 := eq_zero_of_identity_denotes (hO ▸ smul_denotes hn hp)
  have hsum : a • A + b • d • A = ((a + b * d) % n) • A := by
    rw [← nsmul_eq_mod_nsmul _ hnA, add_nsmul, mul_nsmul']
  have hadd := padd_denotes (smul_denotes ha hp) (smul_denotes hb (smul_denotes hd hp))
  rw [hsum] at hadd
  exact eq_of_denotes hadd (smul_denotes ((Nat.mod_lt _ hn0).trans hn) hp)

/-- The test's point is k·G, the point the signature's r was taken from. -/
theorem accepts_of_nonceGives {z d k r sv : Nat} (hg : NonceGives z d k r sv) (hd : d < 2 ^ 256) :
    Accepts z (smul d generator) r sv := by
  obtain ⟨⟨hr0, hr⟩, hs0, hs⟩ := range_of_nonceGives hg
  have hN : groupOrder < 2 ^ 256 := by decide
  have hlt (a : Nat) : a % groupOrder < 2 ^ 256 := (Nat.mod_lt a groupOrder_pos).trans hN
  obtain ⟨G, hG⟩ := generator_denotes
  refine ⟨hr0, hr, hs0, hs, _, smul k generator, rfl, ?_, ?_⟩
  · rw [padd_smul_smul hG groupOrder_pos hN smul_groupOrder_generator (hlt _) (hlt _) hd, nonce_of_scalars hg rfl]
  · obtain ⟨-, -, rfl, -⟩ := hg
    refine ⟨fun hO => ?_, rfl⟩
    rw [hO] at hr0
    exact hr0.false

/-- Settles O29: the completed SIGN wrote what some nonce gives, and the test accepts that. -/
theorem signThenVerify : Obligations.SignThenVerify := by
  intro rd ra rb va vb vm s t u _ hvb hvm hs hsign ht hz hx hy hr hsv
  obtain ⟨k, hg⟩ := nonceGives_of_exec_sign hs hsign ht
  obtain ⟨v, hv, -, -, -, -, hvres⟩ := verifyResult va vb vm u hvb hvm
  have hQ : pointAt u vb = smul (s.val rb) generator := by
    rw [pointAt, hx, hy]
    exact reducePoint_of_reduced (smul_reduced _ _)
  refine ⟨v, hv, hvres.mpr ?_⟩
  rw [hz, hQ, hr, hsv]
  exact accepts_of_nonceGives hg (val_lt s rb)

end Sys2Proof.Machine
end

section
/-! PROOFS. The statements of 60_exceptions.md: the first failing check is the one a command reports, every command in
flight ends at its engine step but a SIGN with no usable nonce, and a step runs the decoded command. -/

namespace Sys2Proof.Machine

open Sys2Proof.Claims

/-! ### The engine's turn runs the decoded command (60_exceptions.md R185) -/

theorem engineTurn_of_decode {s : State} {i : Instr} (hb : s.busy = true) (hd : decode s.cmdlast = .ok i) :
    engineTurn s = exec i s := by
  simp only [engineTurn, engineStep, hb, hd, if_true]

theorem engineTurn_idle {s : State} (hb : s.busy = false) : engineTurn s = .next s := by
  simp [engineTurn, hb]

theorem decode_of_decodeTableWord {nbits w : Nat} {i : Instr} (h : decodeTableWord nbits w = some i) :
    decode (tableWord nbits w) = .ok i := by
  unfold decodeTableWord at h
  split at h
  · next j hj => cases h; exact hj
  · cases h

/-- Settles O41: the engine's turn is the oldest event, or all that is left to happen; `withFetchWord` puts it first. -/
theorem stepRunsTheDecodedCommand : Obligations.StepRunsTheDecodedCommand := by
  refine ⟨fun s i hb he hd => ?_, fun s i rest hb he hd => step_engine_of_decode hb hd he,
    fun s rest hb he => ?_, fun s nbits w i h => ?_⟩
  · rw [step_nil he, engineTurn_of_decode hb hd]
  · rw [step_engine he, engineTurn_idle (s := s.setEvents rest) hb]
  · exact step_engine_of_decode (s := s.withFetchWord nbits w) rfl (decode_of_decodeTableWord h) rfl

/-! ### Every command ends, or is a starved SIGN (60_exceptions.md R183) -/

/-- A command is over: with success, or with one of the four codes. -/
def Ended (t : State) : Prop :=
  t.busy = false ∧ t.done = true ∧
    ((t.err = false ∧ t.errcode = 0) ∨ (t.err = true ∧ t.errcode ∈ [1#4, 2#4, 3#4, 4#4]))

theorem complete_ended (s : State) : Ended s.complete := ⟨rfl, rfl, .inl ⟨rfl, rfl⟩⟩

theorem ErrorCode.code_mem (e : ErrorCode) : e.code ∈ [1#4, 2#4, 3#4, 4#4] := by cases e <;> decide

theorem raise_ended (s : State) (e : ErrorCode) : Ended (s.raise e) := ⟨rfl, rfl, .inr ⟨rfl, e.code_mem⟩⟩

/-- The draws of a loop that found no signature are all rejected (42_ecdsa.md R163). -/
theorem nonceRejected_of_signLoop_none {z d : Nat} {draws : List Word} (h : signLoop z d draws = none) :
    ∀ j ∈ draws, NonceRejected z d j.toNat :=
  fun j hj => signWith_eq_none_iff.mp (signLoop_none h j hj)

theorem Effect.ended_or_starved {i : Instr} {s t : State} (h : Effect i s t) :
    Ended t ∨ t = s ∧ ∃ rd ra rb, i = .sign rd ra rb ∧
      ∀ j ∈ s.draws, NonceRejected (s.val ra) (s.val rb) j.toNat := by
  cases h with
  | scalar rd v h => exact .inl (h ▸ complete_ended _)
  | point rd p h => exact .inl (h ▸ complete_ended _)
  | signature rd ra rb rs rest hi hs h => exact .inl (h ▸ complete_ended _)
  | waiting rd ra rb hi hs h => exact .inr ⟨h, rd, ra, rb, hi, nonceRejected_of_signLoop_none hs⟩
  | verdict ra rb rm hi h => exact .inl (h ▸ complete_ended _)
  | error e h => exact .inl (h ▸ raise_ended s e)

/-- Settles O47: a word that does not decode raises, and of the commands only a SIGN can wait. -/
theorem everyCommandEndsButAStarvedSign : Obligations.EveryCommandEndsButAStarvedSign := by
  intro s hb
  cases hd : decode s.cmdlast with
  | error e => exact .inl ⟨_, engineTurn_of_decode_error hb hd, raise_ended s _⟩
  | ok i =>
    obtain ⟨t, ht, heff⟩ := exec_effect i s
    have hturn : engineTurn s = .next t := (engineTurn_of_decode hb hd).trans ht
    rcases heff.ended_or_starved with hend | ⟨rfl, rd, ra, rb, rfl, hrej⟩
    · exact .inl ⟨t, hturn, hend⟩
    · exact .inr ⟨t, rd, ra, rb, hturn, hb, rfl, hrej⟩

/-! ### The first failing check is reported (60_exceptions.md R182) -/

/-- The check on the modulus of a decoded command: the code it fails with, or 0 (40_modular.md R100). -/
def modulusError (s : State) : Instr → BitVec 4
  | .addm _ _ _ rm | .subm _ _ _ rm | .mulm _ _ _ rm | .expm _ _ _ rm => if s.val rm = 0 then 3 else 0
  | .invm _ _ rm | .divm _ _ _ rm => if s.val rm ≤ 2 then 4 else 0
  | .ldc _ _ | .padd _ _ _ | .pdbl _ _ | .smul _ _ _ | .pubk _ _ | .sign _ _ _ | .verify _ _ _ => 0

theorem knownOpcode_iff {w : BusWord} : KnownOpcode w ↔ ∃ o : Opcode, opField w = o.bits := by
  constructor
  · rintro ⟨row, hrow, hop⟩
    obtain ⟨o, rfl⟩ := mem_opcodeMap.mp hrow
    exact ⟨o, hop.symm⟩
  · rintro ⟨o, ho⟩
    exact ⟨_, opcode_mem_opcodeMap o, ho.symm⟩

/-- The first check fails exactly as the decoder's does. -/
theorem decode_of_not_knownOpcode {w : BusWord} (h : ¬ KnownOpcode w) : decode w = .error .illegalOpcode :=
  decode_illegalOpcode fun o ho => h (knownOpcode_iff.mpr ⟨o, ho⟩)

/-- So does the second. -/
theorem decode_of_not_legalWord {w : BusWord} (hk : KnownOpcode w) (h : ¬ LegalWord w) :
    decode w = .error .illegalOperand := by
  obtain ⟨o, ho⟩ := knownOpcode_iff.mp hk
  refine decode_illegalOperand ho ?_
  by_contra! hpass
  exact h (legalWord_iff.mpr ⟨o, hpass.1, fun hl => Nat.le_of_lt_succ (hpass.2 hl)⟩)

/-- A word that passes both is left with the check on its command's modulus. -/
theorem firstError_of_legalWord (s : State) {w : BusWord} (h : LegalWord w) :
    ∃ i, decode w = .ok i ∧ firstError s w = modulusError s i := by
  obtain ⟨o, hm, hk⟩ := legalWord_iff.mp h
  have hop : opOf w = o.bits := Opcode.opField_of_masked hm
  have hrm : modulusOf s w = s.val (rmField w) := rfl
  refine ⟨o.instr w, decode_eq_ok_iff.mpr ⟨o, hm, hk, rfl⟩, ?_⟩
  rw [firstError, if_neg (not_not.mpr (knownOpcode_iff.mpr ⟨o, hop⟩)), if_neg (not_not.mpr h), hop, hrm]
  cases o <;> simp [Opcode.bits, Opcode.instr, modulusError]

/-- The end of a command reports `code`: with that error, or where it is 0 with none. -/
def Reports (s t : State) (code : BitVec 4) : Prop :=
  (code ≠ 0 → ErrorResult s t code) ∧ (code = 0 → t.err = false)

theorem reports_of_errorResult {s t : State} {code : BitVec 4} (h : ErrorResult s t code) (hne : code ≠ 0) :
    Reports s t code := ⟨fun _ => h, fun h0 => absurd h0 hne⟩

theorem reports_zero {s t : State} (h : t.err = false) : Reports s t 0 := ⟨fun hne => absurd rfl hne, fun _ => h⟩

theorem checkedModZero_reports (s : State) (rd rm : Reg) (v : Nat) :
    Reports s (s.checkedModZero rd rm v) (if s.val rm = 0 then 3 else 0) := by
  rcases checkedModZero_cases s rd rm v with ⟨h0, -⟩ | ⟨h0, e⟩
  · rw [if_pos h0]
    exact reports_of_errorResult (checkedModZero_errorResult h0) (by decide)
  · rw [if_neg h0, e]
    exact reports_zero rfl

theorem checkedPrecondition_reports (s : State) (rd rm : Reg) (v : Nat) :
    Reports s (s.checkedPrecondition rd rm v) (if s.val rm ≤ 2 then 4 else 0) := by
  rcases checkedPrecondition_cases s rd rm v with ⟨h2, -⟩ | ⟨h2, e⟩
  · rw [if_pos h2]
    exact reports_of_errorResult (checkedPrecondition_errorResult h2) (by decide)
  · rw [if_neg h2.not_ge, e]
    exact reports_zero rfl

/-- A legal command reports the check on its modulus; a SIGN still waiting leaves ERR as acceptance cleared it. -/
theorem exec_reports {i : Instr} {s : State} (hwf : i.WellFormed) (he : s.err = false) :
    ∃ t, exec i s = .next t ∧ Reports s t (modulusError s i) := by
  cases i with
  | addm | subm | mulm | expm => exact ⟨_, rfl, checkedModZero_reports s _ _ _⟩
  | invm | divm => exact ⟨_, rfl, checkedPrecondition_reports s _ _ _⟩
  | ldc rd k =>
    have hk : k.val ≤ 4 := of_decide_eq_true hwf
    obtain ⟨v, hv⟩ := Option.isSome_iff_exists.mp (romEntry_isSome.mpr hk)
    exact ⟨_, exec_ldc_of_some s hv, reports_zero rfl⟩
  | padd | pdbl | smul | pubk | verify => exact ⟨_, rfl, reports_zero rfl⟩
  | sign rd ra rb =>
    cases hl : signLoop (s.val ra) (s.val rb) s.draws with
    | none => exact ⟨_, exec_sign_of_none hl, reports_zero he⟩
    | some out => exact ⟨_, exec_sign_of_some hl, reports_zero rfl⟩

/-- The three checks in their order: the opcode, the operands, the modulus. -/
theorem engineTurn_reports {s : State} (hb : s.busy = true) (he : s.err = false) :
    ∃ t, engineTurn s = .next t ∧ Reports s t (firstError s s.cmdlast) := by
  by_cases hk : KnownOpcode s.cmdlast
  · by_cases hl : LegalWord s.cmdlast
    · obtain ⟨i, hd, hf⟩ := firstError_of_legalWord s hl
      rw [engineTurn_of_decode hb hd, hf]
      exact exec_reports (encodeOfDecode _ i hd).1 he
    · rw [firstError, if_neg (not_not.mpr hk), if_pos hl]
      exact ⟨_, engineTurn_of_decode_error hb (decode_of_not_legalWord hk hl),
        reports_of_errorResult (raise_errorResult s .illegalOperand) (by decide)⟩
  · rw [firstError, if_pos hk]
    exact ⟨_, engineTurn_of_decode_error hb (decode_of_not_knownOpcode hk),
      reports_of_errorResult (raise_errorResult s .illegalOpcode) (by decide)⟩

/-- Of the writes only an acceptance touches ERR and ERRCODE (20_memory.md R57). -/
theorem busWrite_keeps_error {s : State} {a : BusAddr} (h : s.busy = true ∨ busTarget a ≠ .cmd) (v : BusWord) :
    (s.busWrite a v).err = s.err ∧ (s.busWrite a v).errcode = s.errcode := by
  simp only [State.busWrite, respond_err, respond_errcode]
  rcases writeEffect_cases s a v with
    ⟨-, e⟩ | ⟨-, e⟩ | ⟨-, e⟩ | ⟨ha, hb, -⟩ | ⟨i, k, -, -, e⟩ | ⟨-, -, e⟩
  · simp [e]
  · simp [e]
  · simp [e]
  · simp [ha, hb] at h
  · simp [e]
  · simp [e]

/-- Settles O7: the engine's turn checks in the order of R182, and neither a bus error nor a transaction while busy is
an acceptance. -/
theorem errorsInPriorityOrder : Obligations.ErrorsInPriorityOrder := by
  refine ⟨fun s hb he => engineTurn_reports hb he, fun s t a v rest hstep hev hcond => ?_⟩
  rcases hev with hev | hev
  · cases (step_read hev).symm.trans hstep
    exact ⟨rfl, rfl⟩
  · cases (step_write hev).symm.trans hstep
    refine busWrite_keeps_error (s := s.setEvents rest) (hcond.imp_right fun ha => ?_) v
    rw [(busTarget_busError a).mpr (by omega)]
    exact nofun

end Sys2Proof.Machine
end

section
/-! PROOFS. The statements of 70_reset_and_hazards.md: the values every piece of the block has after a reset, the draws
an abandoned SIGN loses, and how a command in flight can end. -/

namespace Sys2Proof.Machine

/-! ### The values after reset (70_reset_and_hazards.md R200, R201) -/

@[simp] theorem resetEvent_x (s : State) (n : Nat) (r : Reg) : (s.resetEvent n).x r = 0 :=
  Vector.getElem_replicate r.isLt

/-- The block's own state, and what the host sees of it, at the values of R200. -/
def ResetValues (u : State) : Prop :=
  (∀ r, u.x r = 0) ∧ u.statusWord = 0x00000000 ∧ u.ctrlWord = 0x00000000 ∧ u.cmdlast = 0x00000000 ∧
    u.busy = false ∧ u.done = false ∧ u.err = false ∧ u.z = false ∧ u.vres = false ∧ u.ovr = false ∧
    u.errcode = 0 ∧ u.irqen = false ∧ u.irq = false

theorem resetEvent_resetValues (s : State) (n : Nat) : ResetValues (s.resetEvent n) :=
  ⟨resetEvent_x s n, BitVec.eq_of_toNat_eq (statusWord_toNat _), BitVec.eq_of_toNat_eq (ctrlWord_toNat _),
    rfl, rfl, rfl, rfl, rfl, rfl, rfl, rfl, rfl, rfl⟩

/-- A reset leaves the state after reset as it is, so the values of the event are those of the first state. -/
theorem resetEvent_reset (n : Nat) : State.reset.resetEvent n = State.reset := rfl

theorem reset_resetValues : ResetValues State.reset := resetEvent_reset 0 ▸ resetEvent_resetValues State.reset 0

/-! ### The draws of an abandoned SIGN (70_reset_and_hazards.md R200; 10_state.md R33) -/

theorem signInFlight_iff {s : State} : s.signInFlight = true ↔
    s.busy = true ∧ ∃ rd ra rb, decode s.cmdlast = .ok (.sign rd ra rb) := by
  rw [State.signInFlight, Bool.and_eq_true]
  refine and_congr_right fun _ => ?_
  split
  · next rd ra rb hd => exact iff_of_true rfl ⟨rd, ra, rb, hd⟩
  · next hne => exact iff_of_false nofun fun ⟨rd, ra, rb, hd⟩ => hne rd ra rb hd

/-- Settles O44: the values are those of the reset event, and it drops draws exactly when a SIGN is in flight. -/
theorem resetSetsEveryField : Obligations.ResetSetsEveryField := by
  intro s n rest h
  refine ⟨(s.setEvents rest).resetEvent n, step_reset h, rfl, fun hsign => ?_, fun hsign => ?_, ?_⟩
  · exact if_pos (signInFlight_iff (s := s.setEvents rest).mpr hsign)
  · exact if_neg (mt (signInFlight_iff (s := s.setEvents rest)).mp hsign)
  · exact List.forall_mem_cons.mpr
      ⟨resetEvent_resetValues _ n, List.forall_mem_singleton.mpr reset_resetValues⟩

/-! ### How a command in flight ends (70_reset_and_hazards.md R203) -/

/-- An engine turn leaves CMDLAST, whether it executes, raises or idles (10_state.md R28). -/
theorem engineTurn_cmdlast {s t : State} (h : engineTurn s = .next t) : t.cmdlast = s.cmdlast := by
  rcases engineTurn_cases h with ⟨-, rfl⟩ | ⟨-, i, -, hx⟩ | ⟨-, e, -, rfl⟩
  · rfl
  · obtain ⟨-, -, hc, -⟩ := (effect_of_exec hx).outside
    exact hc
  · rfl

/-- An engine turn that ends BUSY is the completion of the command (60_exceptions.md R185). -/
theorem engineTurn_completes {s t : State} (h : engineTurn s = .next t) (hs : s.busy = true)
    (ht : t.busy = false) : t.done = true ∧ t.cmdlast = s.cmdlast := by
  rcases engineTurn_stays_or_completes h with rfl | ⟨-, -, hd⟩
  · rw [hs] at ht; cases ht
  · exact ⟨hd, engineTurn_cmdlast h⟩

/-- No read or write ends a command in flight (20_memory.md R58), which leaves the engine's turn and a reset. -/
theorem step_ends_busy {s t : State} (h : step s = .next t) (hs : s.busy = true) (ht : t.busy = false) :
    (∃ n rest, s.events = .reset n :: rest) ∨
      ((s.events = [] ∨ ∃ rest, s.events = .engine :: rest) ∧ t.done = true ∧ t.cmdlast = s.cmdlast) := by
  rcases step_cases h with
    ⟨hev, he⟩ | ⟨a, rest, -, rfl⟩ | ⟨a, v, rest, -, rfl⟩ | ⟨rest, hev, he⟩ | ⟨n, rest, hev, -⟩
  · exact .inr ⟨.inl hev, engineTurn_completes he hs ht⟩
  · cases hs.symm.trans ht
  · obtain ⟨hb, -⟩ := busWrite_inFlight (s := s.setEvents rest) hs a v
    cases hb.symm.trans ht
  · exact .inr ⟨.inr ⟨rest, hev⟩, engineTurn_completes (s := s.setEvents rest) he hs ht⟩
  · exact .inl ⟨n, rest, hev⟩

/-- Settles O45, by the cases of a step. -/
theorem onlyResetStopsACommand : Obligations.OnlyResetStopsACommand :=
  ⟨fun _ _ hs h ht => step_ends_busy h hs ht, fun _ n _ h => ⟨_, step_reset h, resetEvent_x _ n⟩⟩

end Sys2Proof.Machine
end
